-- ==== Sys2Proof/Word.lean ====
section
/-!
DEFINITION. The machine's plain word types: a stream byte, a 32-bit header field and a 24-bit pixel
(spec/00_scope.md R14, spec/20_memory.md R60).
-/

namespace Sys2Proof

/-- One byte of the stream memory (spec/20_memory.md R51). -/
abbrev Byte := BitVec 8

/-- One 32-bit header field (spec/30_encoding.md R71). -/
abbrev Word := BitVec 32

/-- One entry of the pixel bank: red in bits 23 to 16, green in 15 to 8, blue in 7 to 0
(spec/20_memory.md R60). -/
abbrev Pixel := BitVec 24

end Sys2Proof
end

