-- ==== Sys2Proof/Syntax.lean ====
section
/-!
DEFINITION. The items of the container stream, one constructor per row of spec/opcode_table.json,
and the three contexts that select the format an item is parsed as (spec/30_encoding.md R79, R84).
-/

namespace Sys2Proof

/-- A wire colour: three consecutive stream bytes in the order blue, green, red
(spec/00_scope.md R17, spec/20_memory.md R56). -/
structure Colour where
  blue  : Byte
  green : Byte
  red   : Byte
  deriving DecidableEq, Repr

/-- What the bytes at the cursor are parsed as: format H, T or Z (spec/30_encoding.md R79).
The state alone decides it. -/
inductive Context where
  | header   -- format H, in ExpectHeader
  | token    -- format T, in ExpectPayload while pixels remain
  | pad      -- format Z, in the zero skip
  deriving DecidableEq, Repr

/-- The items of the stream. An item also has the forms in which the end of the stream cuts it off: a
literal with fewer colours than its count, a run with no colour, a header with a short signature or
missing fields. Those are not well-formed (WellFormed.lean); the meanings fault on them as the spec
says (spec/60_exceptions.md R163). -/
inductive Instr where
  /-- Literal token: `m` is bits 6:0 of the control byte, the count minus one (R73); then the colour
  operands the stream holds for it (R75). -/
  | lit (m : BitVec 7) (colours : List Colour)
  /-- Run token: `m` is bits 6:0 of the control byte, the count minus one (R73); then its one colour. -/
  | run (m : BitVec 7) (colour : Option Colour)
  /-- Header record (R71): the signature bytes `M` in stream order, then width `w`, height `t`,
  encoding flag `f` and payload block count `c`. -/
  | hdr (M : List Byte) (w t f c : Option Word)
  /-- One zero padding byte (R77). -/
  | padz
  deriving DecidableEq, Repr

end Sys2Proof
end

