-- ==== Sys2Proof/WellFormed.lean ====
section
/-!
DEFINITION. When an item is whole: every operand its format gives it is there
(spec/30_encoding.md R71, R75). Legality of a header's values is no matter of form: the HEADER step
checks it (spec/30_encoding.md R72, R81).
-/

namespace Sys2Proof.WellFormed

/-- A literal has exactly `m + 1` colours (R74, R75). -/
def litColours (m : BitVec 7) (colours : List Colour) : Bool :=
  colours.length == m.toNat + 1

/-- A run has its one colour (R75). -/
def runColour (colour : Option Colour) : Bool :=
  colour.isSome

/-- A signature is exactly 8 bytes (R71). -/
def signature (M : List Byte) : Bool :=
  M.length == 8

/-- All four header fields are there (R71). -/
def fields (w t f c : Option Word) : Bool :=
  w.isSome && t.isSome && f.isSome && c.isSome

end Sys2Proof.WellFormed

namespace Sys2Proof

/-- The item is whole. -/
def Instr.wellFormed : Instr → Bool
  | .lit m colours => WellFormed.litColours m colours
  | .run _ colour => WellFormed.runColour colour
  | .hdr M w t f c => WellFormed.signature M && WellFormed.fields w t f c
  | .padz => true

end Sys2Proof
end

