-- ==== Sys2Proof/Decode.lean ====
section
/-!
DEFINITION. The decoder and the encoder of the three formats (spec/30_encoding.md). Decoding is a total
function of the context (R79) and the bytes at the cursor; a rejection has a name.
-/

namespace Sys2Proof

/-! ## Byte order -/

/-- Bytes as a number, first byte least significant: `sum of byte[i] * 256^i`
(spec/20_memory.md R54, R55). -/
def numLE : List Byte → Nat
  | [] => 0
  | b :: bs => b.toNat + 256 * numLE bs

/-- The low `k` bytes of a number, least significant first. -/
def leBytes : Nat → Nat → List Byte
  | 0, _ => []
  | k + 1, v => BitVec.ofNat 8 v :: leBytes k (v / 256)

/-- `LE32` of four bytes (spec/20_memory.md R54). -/
def le32 (b0 b1 b2 b3 : Byte) : Word :=
  BitVec.ofNat 32 (numLE [b0, b1, b2, b3])

/-! ## Token parser and brancher -/

/-- The two token kinds (spec/30_encoding.md R73). -/
inductive Kind where
  | lit
  | run
  deriving DecidableEq, Repr

/-- `n = zext_9(b) + 1` (spec/30_encoding.md R74, spec/40_rle24_decoder.md R92). -/
def controlN (b : Byte) : Nat :=
  b.toNat + 1

/-- `BRANCH` (spec/40_rle24_decoder.md R93): the kind and the pixel count of a token. -/
def branch (n : Nat) : Kind × Nat :=
  if n > 128 then (.run, n - 128) else (.lit, n)

/-- Pixel count of a token from its field `m`, the count minus one (spec/30_encoding.md R73). -/
def tokenCount (m : BitVec 7) : Nat :=
  m.toNat + 1

/-- The field `m` that carries a count (spec/30_encoding.md R73). -/
def countField (cnt : Nat) : BitVec 7 :=
  BitVec.ofNat 7 (cnt - 1)

/-- The 24-bit pixel of a wire colour: red, green, blue from the most significant byte down; the
component values are copied unchanged (spec/20_memory.md R56, R60, spec/40_rle24_decoder.md R97). -/
def Colour.pixel (c : Colour) : Pixel :=
  c.red ++ c.green ++ c.blue

/-- Up to `n` whole colour operands from the front of the bytes, and the bytes after them
(spec/30_encoding.md R75). A colour of which fewer than three bytes are left is not read
(spec/20_memory.md R52). -/
def takeColours : Nat → List Byte → List Colour × List Byte
  | n + 1, b :: g :: r :: rest =>
    let (cs, left) := takeColours n rest
    (⟨b, g, r⟩ :: cs, left)
  | _, rest => ([], rest)

/-- One 32-bit header field from the front of the bytes, or none of it if fewer than four bytes are
left (spec/41_container_reader.md R123, spec/20_memory.md R52). -/
def takeField : List Byte → Option Word × List Byte
  | b0 :: b1 :: b2 :: b3 :: rest => (some (le32 b0 b1 b2 b3), rest)
  | rest => (none, rest)

/-! ## Decoding -/

/-- Why the bytes at the cursor are no whole item. -/
inductive Reject where
  /-- The stream ends inside the item: `i` holds the operands that are there, `left` the bytes that make
  no whole operand. Its meaning says what happens (spec/60_exceptions.md R163; short signature:
  spec/41_container_reader.md R122; log 10). -/
  | cutShort (i : Instr) (left : List Byte)
  /-- Format T with no byte left: the control byte itself is short (spec/40_rle24_decoder.md R92). -/
  | noControlByte
  /-- Format Z, a byte other than 0x00: it ends the zero skip and is not consumed
  (spec/30_encoding.md R77). -/
  | notPadding (b : Byte)
  /-- Format Z, no byte left: it ends the zero skip (spec/41_container_reader.md R131). -/
  | endOfStream
  deriving DecidableEq, Repr

/-- Format H (spec/30_encoding.md R71). -/
def decodeHeader (bs : List Byte) : Except Reject (Instr × List Byte) :=
  let M := bs.take 8
  let (w, r1) := takeField (bs.drop 8)
  let (t, r2) := takeField r1
  let (f, r3) := takeField r2
  let (c, r4) := takeField r3
  let i := Instr.hdr M w t f c
  if i.wellFormed then .ok (i, r4) else .error (.cutShort i r4)

/-- Format T (spec/30_encoding.md R73 to R76). -/
def decodeToken : List Byte → Except Reject (Instr × List Byte)
  | [] => .error .noControlByte
  | b :: bs =>
    match branch (controlN b) with
    | (.lit, cnt) =>
      let (cs, rest) := takeColours cnt bs
      let i := Instr.lit (countField cnt) cs
      if i.wellFormed then .ok (i, rest) else .error (.cutShort i rest)
    | (.run, cnt) =>
      let (cs, rest) := takeColours 1 bs
      let i := Instr.run (countField cnt) cs.head?
      if i.wellFormed then .ok (i, rest) else .error (.cutShort i rest)

/-- Format Z (spec/30_encoding.md R77). -/
def decodePad : List Byte → Except Reject (Instr × List Byte)
  | [] => .error .endOfStream
  | b :: bs => if b = 0x00 then .ok (.padz, bs) else .error (.notPadding b)

/-- The item at the front of the bytes, in the format the context selects (spec/30_encoding.md R79). -/
def decode : Context → List Byte → Except Reject (Instr × List Byte)
  | .header, bs => decodeHeader bs
  | .token, bs => decodeToken bs
  | .pad, bs => decodePad bs

/-- The longest item of a context in bytes (spec/30_encoding.md R71, R76, R77). -/
def Context.maxBytes : Context → Nat
  | .header => 24
  | .token => 385
  | .pad => 1

/-! ## Encoding -/

/-- The context an item is parsed in (spec/30_encoding.md R79). -/
def Instr.context : Instr → Context
  | .lit _ _ => .token
  | .run _ _ => .token
  | .hdr _ _ _ _ _ => .header
  | .padz => .pad

/-- The stream bytes of a colour: blue, green, red (spec/30_encoding.md R75). -/
def Colour.bytes (c : Colour) : List Byte :=
  [c.blue, c.green, c.red]

/-- The stream bytes of a header field, least significant first (spec/30_encoding.md R71). -/
def fieldBytes : Option Word → List Byte
  | some v => leBytes 4 v.toNat
  | none => []

/-- The control byte of a literal of `n` colours: `n - 1` (spec/30_encoding.md R82). -/
def litControl (n : Nat) : Byte :=
  BitVec.ofNat 8 (n - 1)

/-- The control byte of a run of `k` pixels: `127 + k` (spec/30_encoding.md R82). -/
def runControl (k : Nat) : Byte :=
  BitVec.ofNat 8 (127 + k)

/-- The stream bytes of an item (spec/30_encoding.md R71, R73, R75, R77, R82). -/
def encode : Instr → List Byte
  | .lit m colours => litControl (tokenCount m) :: colours.flatMap Colour.bytes
  | .run m colour => runControl (tokenCount m) :: colour.toList.flatMap Colour.bytes
  | .hdr M w t f c => M ++ fieldBytes w ++ fieldBytes t ++ fieldBytes f ++ fieldBytes c
  | .padz => [0x00]

/-- Length in bytes of a whole item (spec/30_encoding.md R71, R76, R77). -/
def Instr.byteLength : Instr → Nat
  | .lit m _ => 1 + 3 * tokenCount m
  | .run _ _ => 4
  | .hdr _ _ _ _ _ => 24
  | .padz => 1

/-- The pixels a whole token writes, in scan order (spec/40_rle24_decoder.md R95, R96, R103). -/
def Instr.pixels : Instr → List Pixel
  | .lit _ colours => colours.map Colour.pixel
  | .run m colour => colour.toList.flatMap fun c => List.replicate (tokenCount m) c.pixel
  | .hdr _ _ _ _ _ => []
  | .padz => []

/-! ## The opcode table's words -/

/-- The context of a table word. Two rows of the table, LIT and PADZ, share the word 0x00 and differ in
their context column alone (spec/30_encoding.md R79): that word is read as the row that fixes all its
bits, PADZ (log 15). No token is 24 bytes long, so 192 bits are a header record. -/
def tableContext (nbits w : Nat) : Context :=
  if nbits = 192 then .header
  else if nbits = 8 ∧ w % 256 = 0 then .pad
  else .token

/-- The stream bytes of a table word. The table's unit is the byte for LIT, RUN and PADZ: the first byte is in
bits 7:0, and zero bytes stand above `nbits` up to the longest item of the context. HDR's unit is one 192-bit
word, and the pattern of R71 places byte `h+0` in its most significant byte (spec/30_encoding.md R71,
log 21). -/
def tableBytes (nbits w : Nat) : List Byte :=
  match tableContext nbits w with
  | .header => (leBytes 24 (w % 2 ^ nbits)).reverse
  | .token => leBytes 385 (w % 2 ^ nbits)
  | .pad => leBytes 1 (w % 2 ^ nbits)

/-- The instruction the decoder reads from a word of spec/opcode_table.json. -/
def decodeTableWord (nbits w : Nat) : Option Instr :=
  match decode (tableContext nbits w) (tableBytes nbits w) with
  | .ok (i, _) => some i
  | .error _ => none

end Sys2Proof
end

