-- ==== Sys2Proof/Config.lean ====
section
/-!
DEFINITION. What is constant during a run: the configuration (spec/10_state.md R32), the constants of
the logic (spec/00_scope.md R10, R11), the test configuration that State.reset carries
(spec/95_test_vectors.md section 1), and the free values a register holds where the spec leaves it
unspecified (spec/60_exceptions.md R171).
-/

namespace Sys2Proof

/-- The configuration the host sets before a run. The step reads it and never writes it
(spec/10_state.md R32); it is held in State, so every statement over all states holds for every
configuration (log 1). -/
structure Config where
  /-- `RESERVED_OFFSET`, 64 bits (spec/00_scope.md R7). -/
  reservedOffset : BitVec 64
  /-- `MAGIC`: byte `i` in bits `8i+7` to `8i` (spec/00_scope.md R8, spec/42_host_interface.md R150). -/
  magic : BitVec 64
  /-- `ENC_SENTINEL` (spec/00_scope.md R9). -/
  encSentinel : Word
  /-- `PIXBANK_DEPTH`, a property of the attached bank (spec/00_scope.md R12). -/
  pixbankDepth : Nat
  deriving DecidableEq, Repr

/-- `BLOCK` (spec/00_scope.md R10). -/
def Config.block : Nat := 512

/-- `HDR_SIZE` (spec/00_scope.md R11). -/
def Config.hdrSize : Nat := 24

/-- Test configuration TC with `RESERVED_OFFSET = 0` (spec/95_test_vectors.md section 1).
PRESUMED: `MAGIC` and `ENC_SENTINEL` come from general knowledge (spec/93_implementation_defined.md
G1, G2). DESIGN CHOICE: offset 0 and no capacity bound (log 1; unsafe for a claim about a named chip,
none is made). -/
def Config.test : Config where
  reservedOffset := 0
  magic := 0x21214853414C5053
  encSentinel := 1
  pixbankDepth := 2 ^ 64

/-- The registers whose values are unspecified in a terminal state (spec/60_exceptions.md R171). -/
inductive OpenRegister where
  | w | h | flag | blocks | row | col | pstart | pend | cur
  deriving DecidableEq, Repr

/-- Free value of a 32-bit register after a terminal state is entered (log 7; safe). The argument
`draw` counts the terminal states entered so far. -/
opaque Config.unspecified32 (r : OpenRegister) (draw : Nat) : BitVec 32

/-- Free value of a 64-bit register after a terminal state is entered (log 7; safe). -/
opaque Config.unspecified64 (r : OpenRegister) (draw : Nat) : BitVec 64

end Sys2Proof
end

