-- ==== Sys2Proof/Machine/State.lean ====
section
/-!
DEFINITION. The whole state of the block (spec/10_state.md R21), its inputs held as plain data
(stream, configuration, host moves), the reasons a step can stop, and the state after reset (R38).
-/

namespace Sys2Proof.Machine

/-- `STATE` (spec/10_state.md R28): the five states of the block's state machine. -/
inductive Phase where
  | expectHeader
  | expectPayload
  | done
  | unsupportedFile
  | formatError
  deriving DecidableEq, Repr

/-- `CAUSE` (spec/10_state.md R30, spec/60_exceptions.md R160). -/
inductive Cause where
  | none
  | unsupportedFormat
  | invalidEncodingFlag
  | truncatedStream
  | rasterOverrun
  /-- The host's own (spec/60_exceptions.md R165): the block never writes it. -/
  | invalidArgument
  | invalidDimensions
  deriving DecidableEq, Repr

/-- The addresses of a list of cells strictly rise. -/
def rising {α : Type} : List (Nat × α) → Bool
  | [] => true
  | c :: cs => cs.all (fun d => decide (c.1 < d.1)) && rising cs

/-- The stream memory `S` (spec/20_memory.md R51), as cells by stream position. -/
abbrev Memory := List Host.Cell

/-- What a position below `LEN` that is not listed reads as. A container is given byte for byte, so this
only fixes which of its bytes the list leaves out: the zero bytes (log 3). -/
def unlistedByte : Byte := 0x00

/-- Canonical form of the stream memory: positions strictly rising, no entry equal to what an unlisted
position reads as. -/
def Memory.wf (m : Memory) : Bool :=
  rising m && m.all (fun c => decide (c.2 ≠ unlistedByte))

/-- The pixel bank (spec/10_state.md R33): entries by linear index `r * W + c` (spec/20_memory.md R60).
An index that is not listed holds an unspecified value, and reading it gives none (log 8). -/
abbrev Bank := List (Nat × Pixel)

/-- Canonical form of the bank: indices strictly rising. -/
def Bank.wf (b : Bank) : Bool :=
  rising b

/-- One entry `(i, w, h, pix)` of `OUT` (spec/10_state.md R37, spec/42_host_interface.md R152):
`pix` is the bank's entries in use at the moment of the FINISH step (log 14). -/
structure Yielded where
  index  : Nat
  width  : Word
  height : Word
  pix    : Bank
  deriving DecidableEq, Repr

/-- What the host sets up before it releases RESET (spec/70_reset_and_hazards.md R192). -/
structure HostSetup where
  cfg       : Config
  container : List Byte
  deriving DecidableEq, Repr

/-- What the host drives on the block's two asynchronous inputs during one step
(spec/42_host_interface.md R150, spec/60_exceptions.md R170). A new container and configuration can only
come with RESET asserted (R192, R194). -/
inductive HostSample where
  /-- RESET released, with the level of RASTER_ACK. -/
  | running (ack : Bool)
  /-- RESET asserted, with the container and configuration the host loads meanwhile, if any. -/
  | resetting (load : Option HostSetup)
  deriving DecidableEq, Repr

/-- The machine's state. Positions, counters and error context are naturals, as spec/00_scope.md R13 and
spec/40_rle24_decoder.md R101 allow (log 9). -/
structure State where
  /-- `W` (R22). -/
  w : Word
  /-- `H` (R22). -/
  h : Word
  /-- `FLAG` (R23). -/
  flag : Word
  /-- `BLOCKS` (R23). -/
  blocks : Word
  /-- `ROW` (R24). -/
  row : Nat
  /-- `COL` (R24). -/
  col : Nat
  /-- `PSTART` (R25). -/
  pstart : Nat
  /-- `PEND` (R25). -/
  pend : Nat
  /-- `CUR`, the stream cursor and program counter (R26). -/
  cur : Nat
  /-- `SEQ` (R27). -/
  seq : Nat
  /-- `STATE` (R28). -/
  phase : Phase
  /-- `RASTER_VALID` (R29). -/
  rasterValid : Bool
  /-- `CAUSE` (R30). -/
  cause : Cause
  /-- `ERR_POS` (R31). -/
  errPos : Nat
  /-- `ERR_EXPECTED` (R31). -/
  errExpected : Nat
  /-- `ERR_FOUND` (R31). -/
  errFound : Nat
  /-- The pixel bank (R33). -/
  bank : Bank
  /-- `OUT` (R37), oldest first. -/
  out : List Yielded
  /-- The configuration (R32); no step writes it but a load under RESET. -/
  cfg : Config
  /-- The stream contents `S` (spec/00_scope.md R13); no step writes it but a load under RESET. -/
  mem : Memory
  /-- The stream length `LEN` (spec/00_scope.md R13). -/
  len : Nat
  /-- The host's samples still to come, one per step; when none is left, RESET is released and the host
  acknowledges (log 5). -/
  host : List HostSample
  /-- The model's own counter of the free values drawn (log 7). -/
  draws : Nat
  deriving DecidableEq, Repr

/-- Reasons a step faults. The spec's own faults are states, not stops (spec/60_exceptions.md R167). -/
inductive Fault where
  /-- A pixel write at a linear index at or beyond `PIXBANK_DEPTH`: there is no such entry
  (spec/10_state.md R33, spec/20_memory.md R60). Raised by the pixel bank writer in LIT and RUN; no
  state a run reaches raises it. Safe (log 13). -/
  | bankEntryAbsent
  deriving DecidableEq, Repr

/-- Reasons a step has no meaning. -/
inductive Refusal where
  /-- An instruction whose arm has no meaning yet. Raised by exec's arms only. Safe. -/
  | notModelled (mnemonic : String)
  /-- An item run in a state that parses no item of its context (spec/30_encoding.md R79). Raised by every
  meaning; step never asks for it. Safe (log 11). -/
  | outOfContext (c : Context)
  /-- A header with `W * H > PIXBANK_DEPTH`: the spec refuses it (spec/41_container_reader.md R124).
  Raised by HDR. Safe (log 12). -/
  | rasterTooLarge
  /-- A run under a configuration with `MAGIC[0] = 0x00`: the spec says nothing of it and excludes it as a
  premise (spec/70_reset_and_hazards.md R192, R196). Raised by the sequencer in every step without RESET.
  Safe (log 17). -/
  | magicStartsWithZero
  deriving DecidableEq, Repr

/-- The state after reset with no container loaded (spec/10_state.md R38, spec/70_reset_and_hazards.md
R190). The fields R38 leaves unspecified are 0 (DESIGN CHOICE, unsafe, log 2); configuration, stream and
host samples are the host's (log 1, 3, 5). -/
def State.reset : State where
  w := 0
  h := 0
  flag := 0
  blocks := 0
  row := 0
  col := 0
  pstart := 0
  pend := 0
  cur := Config.test.reservedOffset.toNat
  seq := 0
  phase := .expectHeader
  rasterValid := false
  cause := .none
  errPos := 0
  errExpected := 0
  errFound := 0
  bank := []
  out := []
  cfg := Config.test
  mem := []
  len := 0
  host := []
  draws := 0

end Sys2Proof.Machine
end

