-- ==== Sys2Proof/Machine/Ops.lean ====
section
/-!
DEFINITION. The named operations over the stream memory, the pixel bank, the cursor and the status
registers: reading (spec/20_memory.md), fault entry and the terminal states (spec/60_exceptions.md
R167, R171), the host's inputs and reset (spec/70_reset_and_hazards.md).
-/

namespace Sys2Proof.Machine

/-- The outcome type of this machine. -/
abbrev StepOutcome := Host.Outcome State Fault Refusal

/-! ## Cells in canonical form -/

/-- The value listed at `a`, if any. -/
def lookupCell {α : Type} (a : Nat) : List (Nat × α) → Option α
  | [] => none
  | (k, x) :: cs => if k = a then some x else lookupCell a cs

/-- List `v` at `a`, in place of what was listed there. -/
def insertCell {α : Type} (a : Nat) (v : α) : List (Nat × α) → List (Nat × α)
  | [] => [(a, v)]
  | (k, x) :: cs =>
    if a < k then (a, v) :: (k, x) :: cs
    else if a = k then (a, v) :: cs
    else (k, x) :: insertCell a v cs

/-- Unlist `a`. -/
def eraseCell {α : Type} (a : Nat) (cs : List (Nat × α)) : List (Nat × α) :=
  cs.filter fun c => c.1 ≠ a

/-! ## The stream memory -/

/-- The byte of the memory list at `a`. -/
def memByte (m : Memory) (a : Nat) : Byte :=
  (lookupCell a m).getD unlistedByte

/-- Set the byte at `a`; the host does so when it loads a container (spec/70_reset_and_hazards.md R192),
the block never does (spec/20_memory.md R51). -/
def setByte (a : Nat) (b : Byte) (m : Memory) : Memory :=
  if b = unlistedByte then eraseCell a m else insertCell a b m

/-- Set consecutive bytes from `a`. -/
def setBytes : Nat → List Byte → Memory → Memory
  | _, [], m => m
  | a, b :: bs, m => setBytes (a + 1) bs (setByte a b m)

/-- `Avail(a, k)` (spec/00_scope.md R16). -/
def State.avail (s : State) (a k : Nat) : Bool :=
  decide (a + k ≤ s.len)

/-- The stream byte at position `a`; a position at or beyond `LEN` holds nothing
(spec/20_memory.md R51). -/
def State.byteAt (s : State) (a : Nat) : Option Byte :=
  if s.avail a 1 then some (memByte s.mem a) else none

/-- The bytes from position `a`, at most `k` of them, in stream order, as far as the stream holds them. -/
def State.window (s : State) : Nat → Nat → List Byte
  | _, 0 => []
  | a, k + 1 =>
    match s.byteAt a with
    | some b => b :: State.window s (a + 1) k
    | none => []

/-- Number of bytes the stream holds from position `a`: `max(LEN - a, 0)`
(spec/60_exceptions.md R163). -/
def State.left (s : State) (a : Nat) : Nat :=
  s.len - a

/-- The bytes an item of context `c` at the cursor can lie in (spec/30_encoding.md R79). Reading has no
side effect (spec/20_memory.md R59), so bytes the item does not use do not matter (log 19). -/
def State.fetch (s : State) (c : Context) : List Byte :=
  s.window s.cur c.maxBytes

/-- A successful read of `k` bytes at the cursor advances it by `k` (spec/20_memory.md R52). -/
def State.advance (s : State) (k : Nat) : State :=
  { s with cur := s.cur + k }

/-! ## The pixel bank -/

/-- The linear index of row `r`, column `c` in an image of width `w` (spec/20_memory.md R60). -/
def linearIndex (w : Word) (r c : Nat) : Nat :=
  r * w.toNat + c

/-- The bank entry at a linear index; none where nothing is listed: an unspecified value
(spec/10_state.md R33, log 8). -/
def bankEntry (b : Bank) (i : Nat) : Option Pixel :=
  lookupCell i b

/-- The pixel `(r, c)` of a yielded raster (spec/10_state.md R37). -/
def yieldedPixel (y : Yielded) (r c : Nat) : Option Pixel :=
  if r < y.height.toNat ∧ c < y.width.toNat then bankEntry y.pix (linearIndex y.width r c) else none

/-- The host's read of bank entry `(r, c)`: only while RASTER_VALID = 1 and inside the raster
(spec/20_memory.md R61). -/
def State.hostReadPixel (s : State) (r c : Nat) : Option Pixel :=
  if s.rasterValid ∧ r < s.h.toNat ∧ c < s.w.toNat then bankEntry s.bank (linearIndex s.w r c) else none

/-! ## A step's pseudocode -/

/-- Where a step's pseudocode stands: it goes on in a state, or the step has ended
(spec/00_scope.md R16: after `raise` nothing later in the step happens). -/
inductive Flow where
  | go (s : State)
  | ended (o : StepOutcome)

/-- Go on with `k`, unless the step has ended. -/
def Flow.andThen (f : Flow) (k : State → Flow) : Flow :=
  match f with
  | .go s => k s
  | .ended o => .ended o

/-- The outcome of a step whose pseudocode is complete. -/
def Flow.outcome (f : Flow) : StepOutcome :=
  match f with
  | .go s => .next s
  | .ended o => o

/-- Apply `g` to the next state of an outcome. -/
def mapNext (g : State → State) (o : StepOutcome) : StepOutcome :=
  match o with
  | .next s => .next (g s)
  | .fault r => .fault r
  | .refused r => .refused r

/-- Go on with `k` in the next state of an outcome. -/
def bindNext (o : StepOutcome) (k : State → StepOutcome) : StepOutcome :=
  match o with
  | .next s => k s
  | .fault r => .fault r
  | .refused r => .refused r

/-! ## Entering a terminal state -/

/-- The registers that are unspecified in a terminal state take free values, and no bank entry holds a
known value (spec/60_exceptions.md R171, log 7, 8). -/
def State.forget (s : State) : State :=
  { s with
    w := Config.unspecified32 .w s.draws
    h := Config.unspecified32 .h s.draws
    flag := Config.unspecified32 .flag s.draws
    blocks := Config.unspecified32 .blocks s.draws
    row := (Config.unspecified32 .row s.draws).toNat
    col := (Config.unspecified32 .col s.draws).toNat
    pstart := (Config.unspecified64 .pstart s.draws).toNat
    pend := (Config.unspecified64 .pend s.draws).toNat
    cur := (Config.unspecified64 .cur s.draws).toNat
    bank := []
    draws := s.draws + 1 }

/-- Enter a terminal state with a cause and its context. -/
def State.terminate (s : State) (p : Phase) (c : Cause) (pos exp found : Nat) : State :=
  { s.forget with phase := p, cause := c, errPos := pos, errExpected := exp, errFound := found }

/-- Fault entry (spec/60_exceptions.md R167): the one operation every fault is taken through. There is no
return from it (R168). -/
def State.faultEntry (s : State) (c : Cause) (pos exp found : Nat) : State :=
  s.terminate .formatError c pos exp found

/-- `raise <Cause>(pos, exp, found)` (spec/00_scope.md R16, spec/60_exceptions.md R167). -/
def raise (c : Cause) (pos exp found : Nat) (s : State) : Flow :=
  .ended (.next (s.faultEntry c pos exp found))

/-- A read of `k` bytes at the cursor that must succeed is short (spec/60_exceptions.md R163). -/
def raiseTruncated (k : Nat) (s : State) : Flow :=
  raise .truncatedStream s.cur k (s.left s.cur) s

/-- The run ends with no image: state UnsupportedFile (spec/60_exceptions.md R161). -/
def State.enterUnsupported (s : State) (pos exp found : Nat) : State :=
  s.terminate .unsupportedFile .unsupportedFormat pos exp found

/-- The normal end of a run: CAUSE and the error context stay (spec/60_exceptions.md R172). -/
def State.enterDone (s : State) : State :=
  { s.forget with phase := .done }

/-! ## The host's inputs and reset -/

/-- What the host drives during this step (log 5). -/
def State.hostNow (s : State) : HostSample :=
  s.host.headD (.running true)

/-- The host acknowledges during this step (spec/42_host_interface.md R153). -/
def State.ackNow (s : State) : Bool :=
  match s.hostNow with
  | .running ack => ack
  | .resetting _ => false

/-- The step is over: the next step sees the host's next sample. -/
def State.tick (s : State) : State :=
  { s with host := s.host.tail }

/-- The host loads a container and drives the configuration (spec/70_reset_and_hazards.md R192). -/
def State.loadSetup (s : State) : Option HostSetup → State
  | none => s
  | some u => { s with cfg := u.cfg, mem := setBytes 0 u.container [], len := u.container.length }

/-- RESET asserted (spec/70_reset_and_hazards.md R190): every register at its reset value, the cursor at
RESERVED_OFFSET; the configuration, the stream and the samples to come are the host's and stay (log 20). -/
def State.holdReset (s : State) (load : Option HostSetup) : State :=
  let u := s.loadSetup load
  { State.reset with
    cfg := u.cfg
    mem := u.mem
    len := u.len
    cur := u.cfg.reservedOffset.toNat
    host := u.host
    draws := u.draws }

end Sys2Proof.Machine
end

