-- ==== Sys2Proof/Machine/Flags.lean ====
section
/-!
DEFINITION. The block has no condition codes (spec/10_state.md R35). What decides instead stands here:
which step a state enables (spec/10_state.md R20), the overrun guard's count (spec/40_rle24_decoder.md
R94), and the numeric codes and output ports of the status registers (spec/42_host_interface.md R150).
-/

namespace Sys2Proof.Machine

/-- A terminal state (spec/10_state.md R28). -/
def Phase.terminal : Phase → Bool
  | .expectHeader => false
  | .expectPayload => false
  | .done => true
  | .unsupportedFile => true
  | .formatError => true

/-- HEADER is enabled (spec/10_state.md R20). -/
def State.headerEnabled (s : State) : Bool :=
  decide (s.phase = .expectHeader)

/-- TOKEN is enabled (spec/10_state.md R20, spec/40_rle24_decoder.md R91). -/
def State.tokenEnabled (s : State) : Bool :=
  decide (s.phase = .expectPayload) && !s.rasterValid && decide (s.row < s.h.toNat)

/-- FINISH is enabled (spec/10_state.md R20, spec/41_container_reader.md R128). -/
def State.finishEnabled (s : State) : Bool :=
  decide (s.phase = .expectPayload) && !s.rasterValid && decide (s.row = s.h.toNat)

/-- RELEASE is enabled (spec/10_state.md R20, spec/41_container_reader.md R130). -/
def State.releaseEnabled (s : State) : Bool :=
  decide (s.phase = .expectPayload) && s.rasterValid && s.ackNow

/-- The premise on the configuration, `MAGIC[0] != 0x00` (spec/70_reset_and_hazards.md R196,
spec/00_scope.md R8). -/
def State.legalMagic (s : State) : Bool :=
  decide (s.cfg.magic.extractLsb' 0 8 ≠ 0x00)

/-- `rem`: the pixels of the current image not yet written (spec/40_rle24_decoder.md R94). -/
def State.remaining (s : State) : Nat :=
  (s.h.toNat - s.row) * s.w.toNat - s.col

/-- Code of STATE (spec/10_state.md R28). -/
def Phase.code : Phase → BitVec 3
  | .expectHeader => 0
  | .expectPayload => 1
  | .done => 2
  | .unsupportedFile => 3
  | .formatError => 4

/-- Code of CAUSE (spec/60_exceptions.md R160). -/
def Cause.code : Cause → BitVec 3
  | .none => 0
  | .unsupportedFormat => 1
  | .invalidEncodingFlag => 2
  | .truncatedStream => 3
  | .rasterOverrun => 4
  | .invalidArgument => 5
  | .invalidDimensions => 6

/-- The output ports the host reads (spec/42_host_interface.md R150). -/
structure OutputPorts where
  rasterValid : Bool
  rasterW     : BitVec 32
  rasterH     : BitVec 32
  rasterSeq   : BitVec 64
  stState     : BitVec 3
  stCause     : BitVec 3
  stErrPos      : BitVec 64
  stErrExpected : BitVec 64
  stErrFound    : BitVec 64
  deriving DecidableEq, Repr

/-- What the output ports show (spec/42_host_interface.md R150, R154). -/
def State.outputPorts (s : State) : OutputPorts where
  rasterValid := s.rasterValid
  rasterW := s.w
  rasterH := s.h
  rasterSeq := BitVec.ofNat 64 s.seq
  stState := s.phase.code
  stCause := s.cause.code
  stErrPos := BitVec.ofNat 64 s.errPos
  stErrExpected := BitVec.ofNat 64 s.errExpected
  stErrFound := BitVec.ofNat 64 s.errFound

end Sys2Proof.Machine
end

