-- ==== Sys2Proof/Machine/Operands.lean ====
section
/-!
DEFINITION. The operands of the items: the signature as a number and as bytes
(spec/20_memory.md R55), header fields (spec/41_container_reader.md R123), colours
(spec/40_rle24_decoder.md R97), and the boundary arithmetic (spec/41_container_reader.md R125, R126).
-/

namespace Sys2Proof.Machine

/-- `MAGIC[0]` to `MAGIC[7]` in stream order (spec/00_scope.md R8, spec/42_host_interface.md R150). -/
def magicBytes (c : Config) : List Byte :=
  leBytes 8 c.magic.toNat

/-- A header field operand: read it, store it with `put` and advance the cursor by 4, or raise
TruncatedStream if it is short (spec/41_container_reader.md R123). -/
def fieldOperand (x : Option Word) (put : Word → State → State) (s : State) : Flow :=
  match x with
  | some v => .go ((put v s).advance 4)
  | none => raiseTruncated 4 s

/-- `COLOUR` (spec/40_rle24_decoder.md R97): read one colour operand, advance the cursor by 3 and go on
with its pixel, or raise TruncatedStream if it is short. -/
def colourOperand (x : Option Colour) (s : State) (k : Pixel → State → Flow) : Flow :=
  match x with
  | some c => k c.pixel (s.advance 3)
  | none => raiseTruncated 3 s

/-- `PLEN = BLOCKS * 512`, without wrap (spec/41_container_reader.md R125). -/
def payloadLength (blocks : Word) : Nat :=
  blocks.toNat * Config.block

/-- `ALIGN(e)`: the smallest multiple of 512 that is at least `e` (spec/41_container_reader.md R126). -/
def alignBlock (e : Nat) : Nat :=
  (e + (Config.block - 1)) / Config.block * Config.block

end Sys2Proof.Machine
end

