-- ==== Sys2Proof/Machine/Header.lean ====
section
/-!
DEFINITION. The header family, HDR: the HEADER step of the container header validator and the
payload-boundary counter (spec/41_container_reader.md R121 to R127).
-/

namespace Sys2Proof.Machine

/-- `SIGCHECK` (spec/41_container_reader.md R122). `M` is what the stream holds of the signature, so a short
one is no match and its missing bytes count as 0 in ERR_FOUND (spec/60_exceptions.md R161). -/
def sigcheck (M : List Byte) (s : State) : Flow :=
  if M = magicBytes s.cfg then .go (s.advance 8)
  else if s.seq = 0 then
    .ended (.next (s.enterUnsupported s.cur s.cfg.magic.toNat (numLE M)))
  else .ended (.next s.enterDone)

/-- Write the header latch `W` (spec/10_state.md R22). -/
def latchW (v : Word) (s : State) : State := { s with w := v }

/-- Write the header latch `H` (spec/10_state.md R22). -/
def latchH (v : Word) (s : State) : State := { s with h := v }

/-- Write the header latch `FLAG` (spec/10_state.md R23). -/
def latchFlag (v : Word) (s : State) : State := { s with flag := v }

/-- Write the header latch `BLOCKS` (spec/10_state.md R23). -/
def latchBlocks (v : Word) (s : State) : State := { s with blocks := v }

/-- `FIELDS` (spec/41_container_reader.md R123): all four fields are read before any is checked. -/
def readFields (w t f c : Option Word) (s : State) : Flow :=
  (fieldOperand w latchW s).andThen fun s =>
  (fieldOperand t latchH s).andThen fun s =>
  (fieldOperand f latchFlag s).andThen fun s =>
  fieldOperand c latchBlocks s

/-- `VALIDATE(h)` (spec/41_container_reader.md R124, order by spec/60_exceptions.md R169). -/
def validate (h : Nat) (s : State) : Flow :=
  if s.flag ≠ s.cfg.encSentinel then
    raise .invalidEncodingFlag (h + 16) s.cfg.encSentinel.toNat s.flag.toNat s
  else if s.w = 0 ∨ s.h = 0 then
    raise .invalidDimensions (h + 8) 1 (s.w.toNat + 2 ^ 32 * s.h.toNat) s
  else if s.w.toNat * s.h.toNat > s.cfg.pixbankDepth then .ended (.refused .rasterTooLarge)
  else .go s

/-- `BOUNDS(h)` (spec/41_container_reader.md R127). A new image begins, so no bank entry is written in the
current image yet and none holds a known value (spec/10_state.md R33, log 8). -/
def bounds (h : Nat) (s : State) : State :=
  { s with
    pstart := alignBlock (h + Config.hdrSize)
    pend := alignBlock (h + Config.hdrSize) + payloadLength s.blocks
    cur := alignBlock (h + Config.hdrSize)
    row := 0
    col := 0
    bank := []
    phase := .expectPayload }

/-- HDR (spec/41_container_reader.md R121). -/
def execHdr (M : List Byte) (w t f c : Option Word) (s : State) : StepOutcome :=
  if s.headerEnabled then
    ((sigcheck M s).andThen fun s1 =>
      (readFields w t f c s1).andThen fun s2 =>
      (validate s.cur s2).andThen fun s3 => .go (bounds s.cur s3)).outcome
  else .refused (.outOfContext .header)

end Sys2Proof.Machine
end

