-- ==== Sys2Proof/Machine/Padding.lean ====
section
/-!
DEFINITION. The padding family, PADZ: one byte of the zero skip (spec/30_encoding.md R77,
spec/41_container_reader.md R131).
-/

namespace Sys2Proof.Machine

/-- PADZ: in the zero skip the byte is consumed and has no other effect (spec/30_encoding.md R77). -/
def execPadz (s : State) : StepOutcome :=
  if s.releaseEnabled then .next (s.advance 1) else .refused (.outOfContext .pad)

end Sys2Proof.Machine
end

