-- ==== Sys2Proof/Machine/Token.lean ====
section
/-!
DEFINITION. The token family, LIT and RUN (spec/40_rle24_decoder.md): overrun guard, pixel bank writer
and scan-order indexer, and the two meanings over them.
-/

namespace Sys2Proof.Machine

/-- `NEXT` (spec/40_rle24_decoder.md R99): the scan position after `(r, c)` in an image of width `w`. -/
def nextPosition (r c : Nat) (w : Word) : Nat × Nat :=
  if c + 1 = w.toNat then (r + 1, 0) else (r, c + 1)

/-- `BankWrite(ROW, COL, p)` (spec/20_memory.md R60); a linear index the bank does not have faults
(log 13). -/
def writePixel (p : Pixel) (s : State) : Flow :=
  if linearIndex s.w s.row s.col < s.cfg.pixbankDepth then
    .go { s with bank := insertCell (linearIndex s.w s.row s.col) p s.bank }
  else .ended (.fault .bankEntryAbsent)

/-- Advance the scan-order indexer by one pixel (spec/40_rle24_decoder.md R99). -/
def State.nextPixel (s : State) : State :=
  { s with
    row := (nextPosition s.row s.col s.w).1
    col := (nextPosition s.row s.col s.w).2 }

/-- `PIXW` (spec/40_rle24_decoder.md R98). -/
def pixw (p : Pixel) (s : State) : Flow :=
  (writePixel p s).andThen fun t => .go t.nextPixel

/-- `GUARD` after `CTRL` (spec/40_rle24_decoder.md R91, R92, R94): the control byte at the cursor has been
read; a token of more pixels than remain raises RasterOverrun before any operand is read. -/
def controlAndGuard (cnt : Nat) (s : State) : Flow :=
  if cnt > s.remaining then raise .rasterOverrun s.cur s.remaining cnt s else .go (s.advance 1)

/-- The pixels of a literal (spec/40_rle24_decoder.md R95): `n` times one colour operand and one pixel
write. -/
def literalPixels : Nat → List Colour → State → Flow
  | 0, _, s => .go s
  | n + 1, cs, s =>
    colourOperand cs.head? s fun p t => (pixw p t).andThen (literalPixels n cs.tail)

/-- The pixels of a run (spec/40_rle24_decoder.md R96): the same pixel `n` times. -/
def runPixels : Nat → Pixel → State → Flow
  | 0, _, s => .go s
  | n + 1, p, s => (pixw p s).andThen (runPixels n p)

/-- LIT (spec/40_rle24_decoder.md R91, R95). -/
def execLit (m : BitVec 7) (colours : List Colour) (s : State) : StepOutcome :=
  if s.tokenEnabled then
    ((controlAndGuard (tokenCount m) s).andThen (literalPixels (tokenCount m) colours)).outcome
  else .refused (.outOfContext .token)

/-- RUN (spec/40_rle24_decoder.md R91, R96). -/
def execRun (m : BitVec 7) (colour : Option Colour) (s : State) : StepOutcome :=
  if s.tokenEnabled then
    ((controlAndGuard (tokenCount m) s).andThen fun t =>
      colourOperand colour t (runPixels (tokenCount m))).outcome
  else .refused (.outOfContext .token)

end Sys2Proof.Machine
end

