-- ==== Sys2Proof/Machine/Dispatch.lean ====
section
/-! DEFINITION. The meaning of each instruction, one arm per constructor of Instr. -/

namespace Sys2Proof.Machine

def exec (i : Instr) (s : State) : Host.Outcome State Fault Refusal :=
  match i with
  | .lit m colours => Sys2Proof.Machine.execLit m colours s
  | .run m colour => Sys2Proof.Machine.execRun m colour s
  | .hdr M w t f c => Sys2Proof.Machine.execHdr M w t f c s
  | .padz => Sys2Proof.Machine.execPadz s

end Sys2Proof.Machine
end

