-- ==== Sys2Proof/Machine/Sequencer.lean ====
section
/-!
DEFINITION. The sequencer (spec/10_state.md R20): which of the four steps runs, and the two that parse no
item of their own, FINISH and RELEASE (spec/41_container_reader.md R128, R130). Step.lean only calls it.
-/

namespace Sys2Proof.Machine

/-- Fetch the item at the cursor in a context and run it; an item the stream's end cuts off is run as far
as it is there, and a token with no control byte is TruncatedStream (spec/40_rle24_decoder.md R92). The
last two rejections end a zero skip and change nothing (spec/41_container_reader.md R131). -/
def runItem (c : Context) (s : State) : StepOutcome :=
  match decode c (s.fetch c) with
  | .ok (i, _) => exec i s
  | .error (.cutShort i _) => exec i s
  | .error .noControlByte => (raiseTruncated 1 s).outcome
  | .error (.notPadding _) => .next s
  | .error .endOfStream => .next s

/-- The raster the FINISH step hands over: the bank's entries in use (spec/42_host_interface.md R152). -/
def State.raster (s : State) : Yielded where
  index := s.seq + 1
  width := s.w
  height := s.h
  pix := s.bank.filter fun e => e.1 < s.w.toNat * s.h.toNat

/-- FINISH (spec/41_container_reader.md R128, R129): forced seek, sequence index, yield. -/
def State.finish (s : State) : State :=
  { s with
    cur := s.pend
    seq := s.seq + 1
    out := s.out ++ [s.raster]
    rasterValid := true }

/-- `SKIPZ` (spec/41_container_reader.md R131): run the padding bytes at the cursor one by one until the
next byte is no padding. The count bounds the loop; LEN - CUR suffices. -/
def skipz : Nat → State → StepOutcome
  | 0, s => .next s
  | n + 1, s =>
    match decode .pad (s.fetch .pad) with
    | .ok (i, _) => bindNext (exec i s) (skipz n)
    | .error _ => .next s

/-- The bank is taken back and the next header expected (spec/41_container_reader.md R130). -/
def State.closeRelease (s : State) : State :=
  { s with rasterValid := false, phase := .expectHeader }

/-- RELEASE (spec/41_container_reader.md R130). Its writes are one atomic step, so RASTER_VALID falls with
the change of STATE, after the skip (log 16). -/
def release (s : State) : StepOutcome :=
  mapNext State.closeRelease (skipz (s.left s.cur) s)

/-- The step RESET leaves to the block when it is released (spec/10_state.md R20). Where no step is enabled
(a terminal state, a host that does not acknowledge yet) the state stays (log 6). -/
def runStep (s : State) : StepOutcome :=
  if s.headerEnabled then runItem .header s
  else if s.tokenEnabled then runItem .token s
  else if s.finishEnabled then .next s.finish
  else if s.releaseEnabled then release s
  else .next s

/-- One step of the machine under the host's sample (spec/42_host_interface.md R150, R151). The host may
drive any configuration while RESET is asserted; once it is released, a run with `MAGIC[0] = 0x00` has no
meaning and is refused (spec/70_reset_and_hazards.md R192, R196, log 17). -/
def sequence (s : State) : StepOutcome :=
  match s.hostNow with
  | .resetting load => .next (s.holdReset load).tick
  | .running _ =>
    if s.legalMagic then mapNext State.tick (runStep s) else .refused .magicStartsWithZero

/-! ## Placing an instruction for the host's check -/

/-- The stream bytes `bs` at the cursor; the stream reaches at least to their end. -/
def State.placeBytes (s : State) (bs : List Byte) : State :=
  { s with mem := setBytes s.cur bs s.mem, len := max s.len (s.cur + bs.length) }

/-- The state in which the next step parses an item of context `c` (spec/30_encoding.md R79, log 4). A
token finds an image with room for any token; in the zero skip the stream ends after one byte, so that
one PADZ runs. -/
def State.enterContext (s : State) (c : Context) : State :=
  match c with
  | .header => { s with phase := .expectHeader, host := [] }
  | .token =>
    { s with
      phase := .expectPayload
      rasterValid := false
      w := 128
      h := 1
      row := 0
      col := 0
      bank := []
      cfg := { s.cfg with pixbankDepth := max s.cfg.pixbankDepth 128 }
      host := [] }
  | .pad =>
    { s with
      phase := .expectPayload
      rasterValid := true
      mem := s.mem.filter fun e => e.1 < s.cur
      len := s.cur
      host := [] }

/-- `s` with a signature that may be run (R196): its own, or the test configuration's where its own begins
with 0x00 (log 4). -/
def State.withLegalMagic (s : State) : State :=
  if s.legalMagic then s else { s with cfg := { s.cfg with magic := Config.test.magic } }

/-- `s` with a word of the opcode table placed where the next step fetches it (log 4). -/
def State.placeWord (s : State) (nbits w : Nat) : State :=
  (s.withLegalMagic.enterContext (tableContext nbits w)).placeBytes (tableBytes nbits w)

end Sys2Proof.Machine
end

