-- ==== Sys2Proof/Machine/Step.lean ====
section
/-!
DEFINITION. One step of the machine (spec/10_state.md R20), and the placing of a table word for the host's
check.
-/

namespace Sys2Proof.Machine

/-- One step: the sequencer's. -/
def step (s : State) : Host.Outcome State Fault Refusal :=
  sequence s

/-- `s` with the instruction of a table word stored where `step` fetches its next one (log 4). -/
def State.withFetchWord (s : State) (nbits w : Nat) : State :=
  s.placeWord nbits w

end Sys2Proof.Machine
end

