-- ==== Sys2Proof/Safety.lean ====
section
/-!
DEFINITION. What holds of every state a run reaches (spec/10_state.md R39, spec/41_container_reader.md
R135), as predicates over all states; and runs of several steps (spec/40_rle24_decoder.md R103).
-/

namespace Sys2Proof.Machine

/-- R39 (a): the header latches and the scan position while an image is decoded; and the capacity bound of
R124. -/
structure State.ScanInv (s : State) : Prop where
  width    : s.phase = .expectPayload → 1 ≤ s.w.toNat
  height   : s.phase = .expectPayload → 1 ≤ s.h.toNat
  column   : s.phase = .expectPayload → s.col < s.w.toNat
  row      : s.phase = .expectPayload → s.row ≤ s.h.toNat
  complete : s.phase = .expectPayload → s.row = s.h.toNat → s.col = 0
  capacity : s.phase = .expectPayload → s.w.toNat * s.h.toNat ≤ s.cfg.pixbankDepth

/-- R39 (b): the bank is in canonical form, and while an image is decoded exactly the entries below the scan
position hold a value written in it. -/
structure State.BankInv (s : State) : Prop where
  canonical : s.bank.wf = true
  written   : s.phase = .expectPayload →
    ∀ i, (bankEntry s.bank i).isSome = true ↔ i < linearIndex s.w s.row s.col

/-- R39 (c): the payload boundaries. -/
structure State.BoundaryInv (s : State) : Prop where
  aligned : s.phase = .expectPayload → s.pstart % 512 = 0
  window  : s.phase = .expectPayload → s.pend = s.pstart + s.blocks.toNat * 512

/-- R39 (d), and what the host sees while it holds a raster (R67): the last entry of OUT is the bank. -/
structure State.HandOverInv (s : State) : Prop where
  payload  : s.rasterValid = true → s.phase = .expectPayload
  complete : s.rasterValid = true → s.row = s.h.toNat ∧ s.col = 0
  seek     : s.rasterValid = true → s.cur = s.pend
  last     : s.rasterValid = true → s.out.getLast? = some ⟨s.seq, s.w, s.h, s.bank⟩

/-- A yielded raster has a value for each of its pixels (spec/10_state.md R33). -/
def Yielded.whole (y : Yielded) : Prop :=
  ∀ r c, r < y.height.toNat → c < y.width.toNat → (yieldedPixel y r c).isSome = true

/-- R39 (e): SEQ counts the entries of OUT; they are numbered from 1 in order (R27, R37) and whole. -/
structure State.OutInv (s : State) : Prop where
  count   : s.seq = s.out.length
  index   : ∀ i y, s.out[i]? = some y → y.index = i + 1
  whole   : ∀ y ∈ s.out, y.whole

/-- R39 (f), (g), R30 and R31: STATE, CAUSE, SEQ and the error context agree. -/
structure State.StatusInv (s : State) : Prop where
  none        : s.cause = .none ↔ (s.phase ≠ .unsupportedFile ∧ s.phase ≠ .formatError)
  unsupported : s.cause = .unsupportedFormat ↔ s.phase = .unsupportedFile
  notHostOnly : s.cause ≠ .invalidArgument
  noContext   : s.cause = .none → s.errPos = 0 ∧ s.errExpected = 0 ∧ s.errFound = 0
  noImage     : s.phase = .unsupportedFile → s.seq = 0
  someImage   : s.phase = .done → 1 ≤ s.seq

/-- The stream memory is in canonical form and lists no position at or beyond LEN
(spec/20_memory.md R51). -/
structure State.StreamInv (s : State) : Prop where
  canonical : s.mem.wf = true
  inside    : ∀ e ∈ s.mem, e.1 < s.len

/-- The invariant of the machine. -/
structure State.Inv (s : State) : Prop where
  scan     : s.ScanInv
  bank     : s.BankInv
  boundary : s.BoundaryInv
  handOver : s.HandOverInv
  out      : s.OutInv
  status   : s.StatusInv
  stream   : s.StreamInv

/-- The bound of spec/00_scope.md R13 on the stream and on every stream the host still loads. -/
structure State.LengthBound (s : State) : Prop where
  now   : s.len < 2 ^ 63
  loads : ∀ u, HostSample.resetting (some u) ∈ s.host → u.container.length < 2 ^ 63

/-- R135 and R136: no register reaches the width the spec gives it, and each yielded raster has 24 bytes of
the stream to itself. -/
structure State.PositionInv (s : State) : Prop where
  lengths     : s.LengthBound
  row         : s.row < 2 ^ 32
  col         : s.col < 2 ^ 32
  pstart      : s.pstart < 2 ^ 64
  pend        : s.pend < 2 ^ 64
  cur         : s.cur < 2 ^ 64
  errPos      : s.errPos < 2 ^ 64
  errExpected : s.errExpected < 2 ^ 64
  errFound    : s.errFound < 2 ^ 64
  headers     : 24 * s.seq ≤ s.len
  atHeader    : s.phase = .expectHeader → 24 * s.seq ≤ s.cur
  inImage     : s.phase = .expectPayload → s.pstart ≤ s.len + 511 ∧ 24 * s.seq ≤ s.pstart
  decoding    : s.phase = .expectPayload → s.rasterValid = false →
    24 * (s.seq + 1) ≤ s.len ∧ 24 * (s.seq + 1) ≤ s.pstart ∧ s.cur ≤ max s.pstart s.len

/-- `n` steps, stopping at the first fault or refusal. -/
def runSteps : Nat → State → StepOutcome
  | 0, s => .next s
  | n + 1, s => bindNext (step s) (runSteps n)

/-- The step ended in fault entry: the status registers hold the fault, RASTER_VALID, SEQ, OUT and what the
host drives are as before (spec/60_exceptions.md R167). The other registers are unspecified (R171). -/
structure Faulted (s t : State) (c : Cause) (pos exp found : Nat) : Prop where
  phase       : t.phase = .formatError
  cause       : t.cause = c
  errPos      : t.errPos = pos
  errExpected : t.errExpected = exp
  errFound    : t.errFound = found
  rasterValid : t.rasterValid = s.rasterValid
  seq         : t.seq = s.seq
  out         : t.out = s.out
  cfg         : t.cfg = s.cfg
  stream      : t.mem = s.mem ∧ t.len = s.len
  host        : t.host = s.host

/-- The host drives no RESET during this step. -/
def State.notResetting (s : State) : Prop :=
  ∃ ack, s.hostNow = .running ack

/-- The host drives no RESET in any of the samples to come (log 5). -/
def State.neverResetting (s : State) : Prop :=
  ∀ x ∈ s.host, ∃ ack, x = .running ack

/-- The step parses an item of context `c` (spec/30_encoding.md R79). -/
def State.parses (s : State) (c : Context) : Prop :=
  (c = .header ∧ s.headerEnabled = true) ∨ (c = .token ∧ s.tokenEnabled = true)

/-- The stream length of a list of whole items. -/
def byteLengths (is : List Instr) : Nat :=
  (is.map Instr.byteLength).sum

end Sys2Proof.Machine
end

