-- ==== Sys2Proof/Certificates/Slice0/Obligations.lean ====
section
/-!
DEFINITION. The statements about the machine, from the numbered rules of spec/. Each docstring names the
rule. A statement about every state carries what it needs as hypotheses on the state and the operands;
`legalMagic` is the spec's premise MAGIC[0] != 0x00 on the configuration (R196).
-/

open Sys2Proof Sys2Proof.Machine

/-! ## Reset and the host's inputs -/

/-- R38, R190, R192: RESET gives the registers the table fixes their values; a load puts the container into
the stream byte for byte and sets the configuration. -/
def Obligations.ResetEntersTableState : Prop :=
  ∀ (s : State) (load : Option HostSetup), s.hostNow = .resetting load →
    ∃ t, step s = .next t ∧
      t.phase = .expectHeader ∧ t.cur = t.cfg.reservedOffset.toNat ∧ t.seq = 0 ∧
      t.rasterValid = false ∧ t.cause = .none ∧
      t.errPos = 0 ∧ t.errExpected = 0 ∧ t.errFound = 0 ∧ t.out = [] ∧
      t.host = s.host.tail ∧
      (load = none → t.cfg = s.cfg ∧ ∀ a, t.byteAt a = s.byteAt a) ∧
      (∀ u, load = some u → t.cfg = u.cfg ∧ ∀ a, t.byteAt a = u.container[a]?)

/-- R190: the state after reset is the table's too, and the first step after the release of RESET parses a
header at RESERVED_OFFSET. -/
def Obligations.FirstStepIsHeaderAtReservedOffset : Prop :=
  (State.reset.phase = .expectHeader ∧
    State.reset.cur = State.reset.cfg.reservedOffset.toNat ∧ State.reset.seq = 0 ∧
    State.reset.rasterValid = false ∧ State.reset.cause = .none ∧
    State.reset.errPos = 0 ∧ State.reset.errExpected = 0 ∧ State.reset.errFound = 0 ∧
    State.reset.out = []) ∧
  ∀ (s t : State) (load : Option HostSetup), s.hostNow = .resetting load → step s = .next t →
    t.notResetting → t.legalMagic = true →
    t.cur = t.cfg.reservedOffset.toNat ∧
      ∃ i rest, (decode .header (t.window t.cfg.reservedOffset.toNat 24) = .ok (i, rest) ∨
          decode .header (t.window t.cfg.reservedOffset.toNat 24) = .error (.cutShort i rest)) ∧
        step t = mapNext State.tick (exec i t)

/-- R168, R193: nothing but RESET leaves a terminal state; the state stays as it is. -/
def Obligations.TerminalStatesStay : Prop :=
  ∀ s : State, s.phase.terminal = true → s.notResetting → s.legalMagic = true →
    step s = .next s.tick

/-- R153, R29: while the host holds a raster and does not acknowledge, the block waits. -/
def Obligations.BlockWaitsForAcknowledge : Prop :=
  ∀ s : State, s.phase = .expectPayload → s.rasterValid = true → s.hostNow = .running false →
    s.legalMagic = true →
    step s = .next s.tick

/-- R153, R170: RASTER_ACK does nothing while RASTER_VALID = 0. -/
def Obligations.AcknowledgeIgnoredWithoutRaster : Prop :=
  ∀ (s : State) (a b : Bool) (later : List HostSample), s.rasterValid = false →
    step { s with host := .running a :: later } = step { s with host := .running b :: later }

/-- R196, R192, R8: the premise on the configuration is MAGIC[0] != 0x00; without it every step outside RESET
is refused, and with it none is for that reason. -/
def Obligations.MagicMustNotStartWithZero : Prop :=
  (∀ s : State, s.legalMagic = true ↔ (magicBytes s.cfg).head? ≠ some 0x00) ∧
  (∀ s : State, s.notResetting →
    (s.legalMagic = false ↔ step s = .refused .magicStartsWithZero)) ∧
  (∀ (s : State) (load : Option HostSetup), s.hostNow = .resetting load →
    ∃ t, step s = .next t)

/-- R196, R131: under the premise the zero skip takes no byte of a signature that follows the padding. -/
def Obligations.SignatureSurvivesZeroSkip : Prop :=
  ∀ (s : State) (a : Nat), s.releaseEnabled = true → s.legalMagic = true → s.cur ≤ a →
    (∀ p, s.cur ≤ p → p < a → s.byteAt p = some 0x00) → s.window a 8 = magicBytes s.cfg →
    ∃ t, step s = .next t ∧ t.headerEnabled = true ∧ t.cur = a ∧
      t.window t.cur 8 = magicBytes t.cfg

/-! ## Encoding -/

/-- R93: the brancher, as function, as bits, and at its thresholds. -/
def Obligations.BranchSplitsControlByte : Prop :=
  (∀ n, branch n = if n > 128 then (.run, n - 128) else (.lit, n)) ∧
  (∀ b : Byte, 1 ≤ (branch (controlN b)).2 ∧ (branch (controlN b)).2 ≤ 128 ∧
    ((branch (controlN b)).1 = .run ↔ b.getLsbD 7 = true) ∧
    (branch (controlN b)).2 = (b.extractLsb' 0 7).toNat + 1) ∧
  branch 128 = (.lit, 128) ∧ branch 129 = (.run, 1) ∧
  branch (controlN 0xFF) = (.run, 128) ∧ branch (controlN 0x00) = (.lit, 1)

/-- R54, R71: the four header fields follow the signature, each little-endian. -/
def Obligations.HeaderFieldsAreLittleEndian : Prop :=
  ∀ (M rest : List Byte) (w0 w1 w2 w3 t0 t1 t2 t3 f0 f1 f2 f3 c0 c1 c2 c3 : Byte), M.length = 8 →
    ∃ w t f c : Word,
      decode .header (M ++ [w0, w1, w2, w3, t0, t1, t2, t3, f0, f1, f2, f3, c0, c1, c2, c3] ++ rest) =
        .ok (.hdr M (some w) (some t) (some f) (some c), rest) ∧
      w.toNat = w0.toNat + 256 * w1.toNat + 65536 * w2.toNat + 16777216 * w3.toNat ∧
      t.toNat = t0.toNat + 256 * t1.toNat + 65536 * t2.toNat + 16777216 * t3.toNat ∧
      f.toNat = f0.toNat + 256 * f1.toNat + 65536 * f2.toNat + 16777216 * f3.toNat ∧
      c.toNat = c0.toNat + 256 * c1.toNat + 65536 * c2.toNat + 16777216 * c3.toNat

/-- R56, R60: a colour's bytes are blue, green, red in the stream; the pixel has red in bits 23:16, green in
15:8, blue in 7:0, unchanged; it is what a token writes to the bank. -/
def Obligations.ColourIsBlueGreenRedOnTheWire : Prop :=
  ∀ (b g r : Byte) (rest : List Byte),
    decode .token (0x00 :: b :: g :: r :: rest) = .ok (.lit 0 [⟨b, g, r⟩], rest) ∧
    decode .token (0x80 :: b :: g :: r :: rest) = .ok (.run 0 (some ⟨b, g, r⟩), rest) ∧
    (Colour.pixel ⟨b, g, r⟩).extractLsb' 16 8 = r ∧
    (Colour.pixel ⟨b, g, r⟩).extractLsb' 8 8 = g ∧
    (Colour.pixel ⟨b, g, r⟩).extractLsb' 0 8 = b ∧
    ∀ s : State, s.tokenEnabled = true → s.col < s.w.toNat →
      s.w.toNat * s.h.toNat ≤ s.cfg.pixbankDepth →
      ∃ t u, exec (.lit 0 [⟨b, g, r⟩]) s = .next t ∧ exec (.run 0 (some ⟨b, g, r⟩)) s = .next u ∧
        bankEntry t.bank (linearIndex s.w s.row s.col) = some (Colour.pixel ⟨b, g, r⟩) ∧
        bankEntry u.bank (linearIndex s.w s.row s.col) = some (Colour.pixel ⟨b, g, r⟩)

/-- Words written out from the spec decode to the item they stand for: R82's `LIT #302010`,
`RUN 128, #030201` and `RUN 1, #FFFFFF`, R121's header, and one padding byte (R77). -/
def Obligations.SpecWordsDecode : Prop :=
  decode .token [0x00, 0x10, 0x20, 0x30] = .ok (.lit 0 [⟨0x10, 0x20, 0x30⟩], []) ∧
  decode .token [0xFF, 0x01, 0x02, 0x03] = .ok (.run 127 (some ⟨0x01, 0x02, 0x03⟩), []) ∧
  decode .token [0x80, 0xFF, 0xFF, 0xFF] = .ok (.run 0 (some ⟨0xFF, 0xFF, 0xFF⟩), []) ∧
  decode .header [0x53, 0x50, 0x4C, 0x41, 0x53, 0x48, 0x21, 0x21, 0x02, 0x00, 0x00, 0x00,
      0x03, 0x00, 0x00, 0x00, 0x01, 0x00, 0x00, 0x00, 0x01, 0x00, 0x00, 0x00] =
    .ok (.hdr [0x53, 0x50, 0x4C, 0x41, 0x53, 0x48, 0x21, 0x21] (some 2) (some 3) (some 1) (some 1), []) ∧
  decode .pad [0x00, 0x53] = .ok (.padz, [0x53])

/-- R70 to R77: every whole item, with every operand at every value, decodes from its own bytes. -/
def Obligations.DecodeOfEncode : Prop :=
  ∀ (i : Instr) (rest : List Byte), i.wellFormed = true →
    decode i.context (encode i ++ rest) = .ok (i, rest)

/-- R76, R80: what decodes is whole, of its context, has the length the rules give, and encodes back to the
bytes it was read from; what the stream's end cuts off keeps every byte that was there. -/
def Obligations.EncodeOfDecode : Prop :=
  (∀ (c : Context) (bs rest : List Byte) (i : Instr), decode c bs = .ok (i, rest) →
    i.wellFormed = true ∧ i.context = c ∧ encode i ++ rest = bs ∧
    (encode i).length = i.byteLength ∧ i.byteLength ≤ c.maxBytes) ∧
  (∀ (c : Context) (bs left : List Byte) (i : Instr), decode c bs = .error (.cutShort i left) →
    i.wellFormed = false ∧ i.context = c ∧ encode i ++ left = bs ∧ bs.length < i.byteLength)

/-! ## Fetching and the step -/

/-- R20, R79: a HEADER or TOKEN step runs the item decoded at the cursor, a whole one or one the stream's end
cuts off; around it the step only moves on to the host's next sample. -/
def Obligations.StepRunsDecodedItem : Prop :=
  ∀ (s : State) (c : Context) (i : Instr) (rest : List Byte), s.parses c → s.notResetting →
    s.legalMagic = true →
    (decode c (s.fetch c) = .ok (i, rest) ∨ decode c (s.fetch c) = .error (.cutShort i rest)) →
    step s = mapNext State.tick (exec i s)

/-- R131, R130: the RELEASE step runs PADZ for a zero byte at the cursor and goes on from there; where the
byte is no zero, or there is none, it closes. -/
def Obligations.ReleaseRunsPadding : Prop :=
  ∀ s : State, s.releaseEnabled = true → s.legalMagic = true →
    (s.byteAt s.cur = some 0x00 →
      exec .padz s = .next (s.advance 1) ∧ step s = step (s.advance 1)) ∧
    (s.byteAt s.cur ≠ some 0x00 → step s = .next s.closeRelease.tick)

/-- R130, R131: RELEASE leaves the cursor at the first position from it on that holds no zero byte, and
writes RASTER_VALID, CUR and STATE only. -/
def Obligations.ReleaseSkipsToFirstNonZero : Prop :=
  ∀ s : State, s.releaseEnabled = true → s.legalMagic = true →
    ∃ p, s.cur ≤ p ∧ (∀ a, s.cur ≤ a → a < p → s.byteAt a = some 0x00) ∧
      s.byteAt p ≠ some 0x00 ∧
      step s = .next { s with
        cur := p, rasterValid := false, phase := .expectHeader, host := s.host.tail }

/-- R78, R57: a step depends on the stream only through the bytes of the item it runs. -/
def Obligations.BytesOutsideItemDoNotMatter : Prop :=
  ∀ (s : State) (m : Memory) (c : Context) (i : Instr) (rest : List Byte),
    s.parses c → s.notResetting → decode c (s.fetch c) = .ok (i, rest) →
    (∀ a, s.cur ≤ a → a < s.cur + i.byteLength → memByte m a = memByte s.mem a) →
    step { s with mem := m } = mapNext (fun t => { t with mem := m }) (step s)

/-! ## Tokens -/

/-- R99: the scan order, its count, and that it needs no more than 32 bits. -/
def Obligations.NextPositionIsRowMajor : Prop :=
  (∀ (r c : Nat) (w : Word),
    nextPosition r c w = if c + 1 = w.toNat then (r + 1, 0) else (r, c + 1)) ∧
  (∀ (r c : Nat) (w : Word), c < w.toNat →
    linearIndex w (nextPosition r c w).1 (nextPosition r c w).2 = linearIndex w r c + 1 ∧
    (nextPosition r c w).2 < w.toNat) ∧
  (∀ (r c : Nat) (w h : Word), c < w.toNat → r < h.toNat →
    (nextPosition r c w).1 ≤ h.toNat ∧ (nextPosition r c w).1 < 2 ^ 32 ∧
    (nextPosition r c w).2 < 2 ^ 32) ∧
  (∀ r : Nat, nextPosition r 0 1 = (r + 1, 0)) ∧
  nextPosition 4 6 7 = (5, 0) ∧ nextPosition 4 5 7 = (4, 6) ∧ nextPosition 0 0 1 = (1, 0)

/-- R91, R95, R102: where the image has room, a whole literal writes its colours in order from the scan
position, advances the cursor by 1 + 3n and the position by n, and changes nothing else. -/
def Obligations.LitCompletes : Prop :=
  ∀ (m : BitVec 7) (colours : List Colour) (s : State),
    s.tokenEnabled = true → s.col < s.w.toNat →
    s.w.toNat * s.h.toNat ≤ s.cfg.pixbankDepth →
    WellFormed.litColours m colours = true → tokenCount m ≤ s.remaining →
    ∃ b : Bank,
      exec (.lit m colours) s = .next { s with
        cur := s.cur + (1 + 3 * tokenCount m)
        row := (linearIndex s.w s.row s.col + tokenCount m) / s.w.toNat
        col := (linearIndex s.w s.row s.col + tokenCount m) % s.w.toNat
        bank := b } ∧
      (∀ k, k < tokenCount m →
        bankEntry b (linearIndex s.w s.row s.col + k) = (colours[k]?).map Colour.pixel) ∧
      (∀ k, k < linearIndex s.w s.row s.col ∨ linearIndex s.w s.row s.col + tokenCount m ≤ k →
        bankEntry b k = bankEntry s.bank k)

/-- R91, R96, R102: where the image has room, a whole run writes its one colour to consecutive positions,
advances the cursor by 4 and the position by its count, and changes nothing else. -/
def Obligations.RunCompletes : Prop :=
  ∀ (m : BitVec 7) (colour : Colour) (s : State),
    s.tokenEnabled = true → s.col < s.w.toNat →
    s.w.toNat * s.h.toNat ≤ s.cfg.pixbankDepth → tokenCount m ≤ s.remaining →
    ∃ b : Bank,
      exec (.run m (some colour)) s = .next { s with
        cur := s.cur + 4
        row := (linearIndex s.w s.row s.col + tokenCount m) / s.w.toNat
        col := (linearIndex s.w s.row s.col + tokenCount m) % s.w.toNat
        bank := b } ∧
      (∀ k, k < tokenCount m →
        bankEntry b (linearIndex s.w s.row s.col + k) = some colour.pixel) ∧
      (∀ k, k < linearIndex s.w s.row s.col ∨ linearIndex s.w s.row s.col + tokenCount m ≤ k →
        bankEntry b k = bankEntry s.bank k)

/-- R95, R96, R35: in every state, a token that ends in no fault changes the cursor, the scan position and
the bank entries of its pixels, and nothing else. -/
def Obligations.TokenFrame : Prop :=
  (∀ (m : BitVec 7) (colours : List Colour) (s t : State),
    exec (.lit m colours) s = .next t → t.phase ≠ .formatError →
    t = { s with cur := t.cur, row := t.row, col := t.col, bank := t.bank } ∧
    ∀ k, k < linearIndex s.w s.row s.col ∨ linearIndex s.w s.row s.col + tokenCount m ≤ k →
      bankEntry t.bank k = bankEntry s.bank k) ∧
  (∀ (m : BitVec 7) (colour : Option Colour) (s t : State),
    exec (.run m colour) s = .next t → t.phase ≠ .formatError →
    t = { s with cur := t.cur, row := t.row, col := t.col, bank := t.bank } ∧
    ∀ k, k < linearIndex s.w s.row s.col ∨ linearIndex s.w s.row s.col + tokenCount m ≤ k →
      bankEntry t.bank k = bankEntry s.bank k)

/-- R96: a run of one and a literal of one with the same colour have the same effect. -/
def Obligations.RunOfOneActsAsLiteralOfOne : Prop :=
  ∀ (colour : Colour) (s : State), exec (.run 0 (some colour)) s = exec (.lit 0 [colour]) s

/-- R94, R164, R169: a token of more pixels than remain faults with RasterOverrun, whatever operands the
stream holds for it. -/
def Obligations.OverrunFaults : Prop :=
  ∀ (m : BitVec 7) (s : State), s.tokenEnabled = true → tokenCount m > s.remaining →
    (∀ colours : List Colour, ∃ t, exec (.lit m colours) s = .next t ∧
      Faulted s t .rasterOverrun s.cur ((s.h.toNat - s.row) * s.w.toNat - s.col) (m.toNat + 1)) ∧
    (∀ colour : Option Colour, ∃ t, exec (.run m colour) s = .next t ∧
      Faulted s t .rasterOverrun s.cur ((s.h.toNat - s.row) * s.w.toNat - s.col) (m.toNat + 1))

/-- R95, R97, R163: a literal whose operands the stream's end cuts off faults at its first short colour. -/
def Obligations.LitCutShortFaults : Prop :=
  ∀ (m : BitVec 7) (colours : List Colour) (s : State),
    s.tokenEnabled = true → s.col < s.w.toNat →
    s.w.toNat * s.h.toNat ≤ s.cfg.pixbankDepth →
    tokenCount m ≤ s.remaining → colours.length < tokenCount m →
    ∃ t, exec (.lit m colours) s = .next t ∧
      Faulted s t .truncatedStream (s.cur + 1 + 3 * colours.length) 3
        (s.len - (s.cur + 1 + 3 * colours.length))

/-- R96, R97, R163: a run whose colour is short faults at the colour. -/
def Obligations.RunCutShortFaults : Prop :=
  ∀ (m : BitVec 7) (s : State), s.tokenEnabled = true → tokenCount m ≤ s.remaining →
    ∃ t, exec (.run m none) s = .next t ∧
      Faulted s t .truncatedStream (s.cur + 1) 3 (s.len - (s.cur + 1))

/-- R92, R163: a TOKEN step with no control byte left faults at the cursor. -/
def Obligations.MissingControlByteFaults : Prop :=
  ∀ s : State, s.tokenEnabled = true → s.notResetting → s.legalMagic = true → s.len ≤ s.cur →
    ∃ t, step s = .next t.tick ∧ Faulted s t .truncatedStream s.cur 1 0

/-- R167: fault entry writes STATE, CAUSE and the error context, keeps RASTER_VALID, SEQ and OUT, ends the
step, and leaves no step enabled. -/
def Obligations.FaultEntryWritesStatus : Prop :=
  ∀ (s : State) (c : Cause) (pos exp found : Nat) (k : State → Flow), s.rasterValid = false →
    ∃ t, ((raise c pos exp found s).andThen k).outcome = .next t ∧ Faulted s t c pos exp found ∧
      t.rasterValid = false ∧ t.headerEnabled = false ∧ t.tokenEnabled = false ∧
      t.finishEnabled = false ∧ t.releaseEnabled = false

/-! ## Header -/

/-- R126: ALIGN gives the least multiple of 512 that is not below its argument. -/
def Obligations.AlignIsLeastBlockMultiple : Prop :=
  ∀ e : Nat, alignBlock e = (e + 511) / 512 * 512 ∧
    alignBlock e % 512 = 0 ∧ e ≤ alignBlock e ∧ alignBlock e ≤ e + 511 ∧
    (∀ p, e ≤ p → p % 512 = 0 → alignBlock e ≤ p) ∧
    alignBlock e / 512 = e / 512 + (if e % 512 = 0 then 0 else 1)

/-- R125: the payload length is the exact product, without wrap; it enters PEND. -/
def Obligations.PayloadLengthIsExact : Prop :=
  (∀ c : Word, payloadLength c = c.toNat * 512 ∧ payloadLength c ≤ (2 ^ 32 - 1) * 512 ∧
    payloadLength c < 2 ^ 41) ∧
  payloadLength 0 = 0 ∧ payloadLength 3 = 1536 ∧
  ∀ (h : Nat) (s : State), (bounds h s).pend = (bounds h s).pstart + payloadLength s.blocks

/-- R121, R123, R125, R126, R127: a header whose signature matches and whose values are legal sets the
latches, the boundaries and the scan position, moves the cursor to the payload and changes nothing else
outside the bank. -/
def Obligations.HdrCompletes : Prop :=
  ∀ (s : State) (w t c : Word), s.headerEnabled = true → 1 ≤ w.toNat → 1 ≤ t.toNat →
    w.toNat * t.toNat ≤ s.cfg.pixbankDepth →
    ∃ b : Bank,
      exec (.hdr (magicBytes s.cfg) (some w) (some t) (some s.cfg.encSentinel) (some c)) s =
        .next { s with
          w := w, h := t, flag := s.cfg.encSentinel, blocks := c
          pstart := (s.cur + 24 + 511) / 512 * 512
          pend := (s.cur + 24 + 511) / 512 * 512 + c.toNat * 512
          cur := (s.cur + 24 + 511) / 512 * 512
          row := 0, col := 0, bank := b, phase := .expectPayload }

/-- R122, R132, R161, R172: a signature that does not match, short or not, ends the run: UnsupportedFile in
the first iteration, Done in a later one, whatever follows it. -/
def Obligations.SignatureMismatchEndsRun : Prop :=
  ∀ (s : State) (M : List Byte) (w t f c : Option Word), s.headerEnabled = true →
    M ≠ magicBytes s.cfg →
    ∃ u, exec (.hdr M w t f c) s = .next u ∧
      u.seq = s.seq ∧ u.out = s.out ∧ u.rasterValid = s.rasterValid ∧
      (s.seq = 0 → u.phase = .unsupportedFile ∧ u.cause = .unsupportedFormat ∧
        u.errPos = s.cur ∧ u.errExpected = s.cfg.magic.toNat ∧ u.errFound = numLE M) ∧
      (s.seq ≠ 0 → u.phase = .done ∧ u.cause = s.cause ∧ u.errPos = s.errPos ∧
        u.errExpected = s.errExpected ∧ u.errFound = s.errFound)

/-- R55, R122: the signature matches when its eight bytes are MAGIC's, byte for byte. -/
def Obligations.SignatureComparedByteForByte : Prop :=
  ∀ (cfg : Config) (M : List Byte), M = magicBytes cfg ↔
    M.length = 8 ∧ ∀ i, i < 8 → M[i]? = some (cfg.magic.extractLsb' (8 * i) 8)

/-- R123, R163, R169: after a matching signature the first field that is short faults at its position,
whatever the fields that are there hold. -/
def Obligations.ShortFieldFaults : Prop :=
  ∀ (s : State) (w t f : Word) (x y z : Option Word), s.headerEnabled = true →
    (∃ u, exec (.hdr (magicBytes s.cfg) none x y z) s = .next u ∧
      Faulted s u .truncatedStream (s.cur + 8) 4 (s.len - (s.cur + 8))) ∧
    (∃ u, exec (.hdr (magicBytes s.cfg) (some w) none y z) s = .next u ∧
      Faulted s u .truncatedStream (s.cur + 12) 4 (s.len - (s.cur + 12))) ∧
    (∃ u, exec (.hdr (magicBytes s.cfg) (some w) (some t) none z) s = .next u ∧
      Faulted s u .truncatedStream (s.cur + 16) 4 (s.len - (s.cur + 16))) ∧
    (∃ u, exec (.hdr (magicBytes s.cfg) (some w) (some t) (some f) none) s = .next u ∧
      Faulted s u .truncatedStream (s.cur + 20) 4 (s.len - (s.cur + 20)))

/-- R124, R162, R166, R169: the checks of a whole header, in their order: the flag, the dimensions, the
capacity, the last of which the spec refuses. -/
def Obligations.HeaderChecksInOrder : Prop :=
  ∀ (s : State) (w t f c : Word), s.headerEnabled = true →
    (f ≠ s.cfg.encSentinel →
      ∃ u, exec (.hdr (magicBytes s.cfg) (some w) (some t) (some f) (some c)) s = .next u ∧
        Faulted s u .invalidEncodingFlag (s.cur + 16) s.cfg.encSentinel.toNat f.toNat) ∧
    (f = s.cfg.encSentinel → w = 0 ∨ t = 0 →
      ∃ u, exec (.hdr (magicBytes s.cfg) (some w) (some t) (some f) (some c)) s = .next u ∧
        Faulted s u .invalidDimensions (s.cur + 8) 1 (w.toNat + 2 ^ 32 * t.toNat)) ∧
    (f = s.cfg.encSentinel → w ≠ 0 → t ≠ 0 → w.toNat * t.toNat > s.cfg.pixbankDepth →
      exec (.hdr (magicBytes s.cfg) (some w) (some t) (some f) (some c)) s =
        .refused .rasterTooLarge)

/-- R121, R35: in every state, a header that enters the payload changes only the latches, the boundaries,
the cursor, the scan position, STATE and the bank. -/
def Obligations.HdrFrame : Prop :=
  ∀ (M : List Byte) (w t f c : Option Word) (s u : State),
    exec (.hdr M w t f c) s = .next u → u.phase = .expectPayload →
    u = { s with
      w := u.w, h := u.h, flag := u.flag, blocks := u.blocks, pstart := u.pstart, pend := u.pend,
      cur := u.cur, row := u.row, col := u.col, bank := u.bank, phase := .expectPayload }

/-! ## Padding, hand-over -/

/-- R77: in the zero skip a padding byte is consumed and has no other effect. -/
def Obligations.PadzCompletes : Prop :=
  ∀ s : State, s.releaseEnabled = true → exec .padz s = .next { s with cur := s.cur + 1 }

/-- R128, R129, R152: FINISH seeks to PEND wherever the cursor is, counts the raster, yields it with its
index, and raises no fault. -/
def Obligations.FinishYieldsRaster : Prop :=
  ∀ s : State, s.finishEnabled = true → s.notResetting → s.legalMagic = true →
    ∃ y : Yielded, step s = .next { s with
        cur := s.pend, seq := s.seq + 1, out := s.out ++ [y], rasterValid := true,
        host := s.host.tail } ∧
      y.index = s.seq + 1 ∧ y.width = s.w ∧ y.height = s.h ∧
      ∀ r c, r < s.h.toNat → c < s.w.toNat →
        yieldedPixel y r c = bankEntry s.bank (linearIndex s.w r c)

/-- R61, R67, R33: while RASTER_VALID = 1 the host reads a value for every pixel, the one that was yielded;
otherwise, or outside the raster, it reads none. -/
def Obligations.HostSeesEveryPixel : Prop :=
  ∀ s : State, s.Inv →
    (s.rasterValid = true → ∀ r c, r < s.h.toNat → c < s.w.toNat →
      ∃ p y, s.hostReadPixel r c = some p ∧ s.out.getLast? = some y ∧ y.index = s.seq ∧
        yieldedPixel y r c = some p) ∧
    (∀ r c, s.rasterValid = false ∨ s.h.toNat ≤ r ∨ s.w.toNat ≤ c → s.hostReadPixel r c = none)

/-- R67, R29, R195: from the hand-over to the end of RELEASE no step changes the bank, W, H, SEQ or OUT. -/
def Obligations.BankKeptWhileHandedOver : Prop :=
  ∀ s t : State, s.HandOverInv → s.rasterValid = true → s.notResetting → step s = .next t →
    t.bank = s.bank ∧ t.w = s.w ∧ t.h = s.h ∧ t.seq = s.seq ∧ t.out = s.out ∧
    (t.rasterValid = true → t.hostReadPixel = s.hostReadPixel) ∧
    (t.rasterValid = false → s.ackNow = true ∧ t.phase = .expectHeader)

/-! ## The whole machine -/

/-- R51, R21: no item writes the stream, the configuration, SEQ, OUT or RASTER_VALID, or consumes a host
sample. -/
def Obligations.ItemsKeepStreamAndOutput : Prop :=
  ∀ (i : Instr) (s t : State), exec i s = .next t →
    (∀ a, t.byteAt a = s.byteAt a) ∧ t.mem = s.mem ∧ t.len = s.len ∧ t.cfg = s.cfg ∧
    t.seq = s.seq ∧ t.out = s.out ∧ t.rasterValid = s.rasterValid ∧ t.host = s.host

/-- R79: an item has a meaning exactly in the states that parse its context; elsewhere it is refused. -/
def Obligations.ItemsOutOfContextRefused : Prop :=
  ∀ (i : Instr) (s : State), exec i s = .refused (.outOfContext i.context) ↔
    (i.context = .header ∧ s.headerEnabled = false) ∨
    (i.context = .token ∧ s.tokenEnabled = false) ∨
    (i.context = .pad ∧ s.releaseEnabled = false)

/-- R134: the state machine has the table's edges and no others. -/
def Obligations.OnlyTableTransitions : Prop :=
  ∀ s t : State, s.HandOverInv → s.notResetting → step s = .next t →
    (s.phase = .expectHeader →
      t.phase = .expectPayload ∨ t.phase = .formatError ∨
      (t.phase = .unsupportedFile ∧ s.seq = 0) ∨ (t.phase = .done ∧ s.seq ≠ 0)) ∧
    (s.phase = .expectPayload →
      t.phase = .expectPayload ∨ (t.phase = .formatError ∧ s.tokenEnabled = true) ∨
      (t.phase = .expectHeader ∧ s.releaseEnabled = true)) ∧
    (s.phase.terminal = true → t.phase = s.phase)

/-- R27, R37, R120: outside RESET, OUT and SEQ change in a FINISH step only, by one entry. -/
def Obligations.OutputGrowsOnlyByFinish : Prop :=
  ∀ s t : State, s.notResetting → step s = .next t →
    (t.out = s.out ∧ t.seq = s.seq) ∨
    (s.finishEnabled = true ∧ t.seq = s.seq + 1 ∧ ∃ y, t.out = s.out ++ [y] ∧ y.index = t.seq)

/-- R90, R101: a state the machine reaches never faults in the model, and no step is refused but for a
header over the bank's capacity (R124) or a signature that may not be run (R196). -/
def Obligations.OnlyCapacityStopsStep : Prop :=
  ∀ s : State, s.Inv →
    (∃ t, step s = .next t) ∨ (step s = .refused .rasterTooLarge ∧ s.headerEnabled = true) ∨
    (step s = .refused .magicStartsWithZero ∧ s.legalMagic = false)

/-- R173: the codes of STATE and of CAUSE, as R28 and R160 give them, tell every outcome from every other. -/
def Obligations.StatusCodesDistinguish : Prop :=
  (∀ p q : Phase, p.code = q.code → p = q) ∧ (∀ a b : Cause, a.code = b.code → a = b) ∧
  [Phase.expectHeader, .expectPayload, .done, .unsupportedFile, .formatError].map Phase.code =
    [0, 1, 2, 3, 4] ∧
  [Cause.none, .unsupportedFormat, .invalidEncodingFlag, .truncatedStream, .rasterOverrun,
    .invalidArgument, .invalidDimensions].map Cause.code = [0, 1, 2, 3, 4, 5, 6]

/-- The machine's invariant (R39, R30, R31) holds after reset, with any container and configuration. -/
def Obligations.ResetMeetsInvariant : Prop :=
  State.reset.Inv ∧ State.reset.PositionInv ∧
  ∀ (s : State) (u : HostSetup), (s.holdReset (some u)).Inv

/-- R39, R30, R31: every step keeps the machine's invariant. -/
def Obligations.StepKeepsInvariant : Prop :=
  ∀ s t : State, s.Inv → step s = .next t → t.Inv

/-- R135, R136, R27: for a stream shorter than 2^63 no register reaches the width the spec gives it, and each
yielded raster has a header of its own. -/
def Obligations.StepKeepsRegisterWidths : Prop :=
  ∀ s t : State, s.Inv → s.PositionInv → step s = .next t → t.PositionInv

/-- R103, R102, R100: a payload that encodes tokens with as many pixels as the image has decodes, one token a
step, to exactly those pixels in scan order, and no byte after them is read as a token. -/
def Obligations.PayloadDecodesToItsPixels : Prop :=
  ∀ (is : List Instr) (s : State),
    s.phase = .expectPayload → s.rasterValid = false → s.row = 0 → s.col = 0 →
    1 ≤ s.w.toNat → 1 ≤ s.h.toNat → s.w.toNat * s.h.toNat ≤ s.cfg.pixbankDepth → s.neverResetting →
    s.legalMagic = true →
    (∀ i ∈ is, i.wellFormed = true ∧ i.context = .token) →
    (is.flatMap Instr.pixels).length = s.w.toNat * s.h.toNat →
    s.window s.cur (byteLengths is) = is.flatMap encode →
    ∃ b : Bank,
      runSteps is.length s = .next { s with
        cur := s.cur + byteLengths is, row := s.h.toNat, col := 0, bank := b,
        host := s.host.drop is.length } ∧
      ∀ k, k < s.w.toNat * s.h.toNat → bankEntry b k = (is.flatMap Instr.pixels)[k]?

/-- R120, R137: from a header position, a valid header and such a payload at the aligned position after it
yield one raster: the header's size, the next index, the payload's pixels; the cursor is then at the
declared end. -/
def Obligations.RecordYieldsItsRaster : Prop :=
  ∀ (is : List Instr) (s : State) (w t c : Word),
    s.headerEnabled = true → s.rasterValid = false → s.neverResetting → s.legalMagic = true →
    1 ≤ w.toNat → 1 ≤ t.toNat → w.toNat * t.toNat ≤ s.cfg.pixbankDepth →
    (∀ i ∈ is, i.wellFormed = true ∧ i.context = .token) →
    (is.flatMap Instr.pixels).length = w.toNat * t.toNat →
    s.window s.cur 24 =
      encode (.hdr (magicBytes s.cfg) (some w) (some t) (some s.cfg.encSentinel) (some c)) →
    s.window (alignBlock (s.cur + 24)) (byteLengths is) = is.flatMap encode →
    ∃ (u : State) (y : Yielded), runSteps (is.length + 2) s = .next u ∧
      u.rasterValid = true ∧ u.seq = s.seq + 1 ∧ u.out = s.out ++ [y] ∧
      u.cur = alignBlock (s.cur + 24) + c.toNat * 512 ∧
      y.index = s.seq + 1 ∧ y.width = w ∧ y.height = t ∧
      ∀ r k, r < t.toNat → k < w.toNat →
        yieldedPixel y r k = (is.flatMap Instr.pixels)[r * w.toNat + k]?

/-- R136: with a host that drives no RESET and acknowledges in the end (log 5: when its samples are used up,
after any finite number of waits), every run ends: it reaches a terminal state, or a header over the
bank's capacity, which the spec refuses. -/
def Obligations.RunReachesTerminalState : Prop :=
  ∀ s : State, s.Inv → s.neverResetting → s.legalMagic = true →
    ∃ n, (∃ t, runSteps n s = .next t ∧ t.phase.terminal = true) ∨
      runSteps n s = .refused .rasterTooLarge
end

