-- ==== Sys2Proof/Laws/Cells.lean ====
section
/-!
SUPPORT. The cells of the stream memory and of the pixel bank: a read after a write, and that every
operation keeps the canonical form.
-/

namespace Sys2Proof.Machine

variable {α : Type}

theorem lookupCell_insertCell_same (a : Nat) (v : α) (l : List (Nat × α)) :
    lookupCell a (insertCell a v l) = some v := by
  induction l with
  | nil => simp [insertCell, lookupCell]
  | cons c l ih =>
    obtain ⟨k, x⟩ := c
    unfold insertCell
    split
    · simp [lookupCell]
    · split
      · simp [lookupCell]
      · next h => simp [lookupCell, Ne.symm h, ih]

theorem lookupCell_insertCell_ne {a b : Nat} (h : b ≠ a) (v : α) (l : List (Nat × α)) :
    lookupCell b (insertCell a v l) = lookupCell b l := by
  induction l with
  | nil => simp [insertCell, lookupCell, h.symm]
  | cons c l ih =>
    obtain ⟨k, x⟩ := c
    unfold insertCell
    split
    · simp [lookupCell, h.symm]
    · split
      · next e => subst e; simp [lookupCell, h.symm]
      · simp only [lookupCell, ih]

theorem lookupCell_insertCell (a b : Nat) (v : α) (l : List (Nat × α)) :
    lookupCell b (insertCell a v l) = if b = a then some v else lookupCell b l := by
  split
  · next h => subst h; exact lookupCell_insertCell_same _ _ _
  · next h => exact lookupCell_insertCell_ne h _ _

theorem lookupCell_filter (p : Nat → Bool) (b : Nat) (l : List (Nat × α)) :
    lookupCell b (l.filter fun c => p c.1) = if p b = true then lookupCell b l else none := by
  induction l with
  | nil => simp [lookupCell]
  | cons c l ih =>
    obtain ⟨k, x⟩ := c
    by_cases hk : p k = true
    · rw [List.filter_cons_of_pos (by simpa using hk)]
      by_cases e : k = b
      · subst e; simp [lookupCell, hk]
      · simp only [lookupCell, e, if_false, ih]
    · rw [List.filter_cons_of_neg (by simpa using hk), ih]
      by_cases e : k = b
      · subst e; simp [hk]
      · simp [lookupCell, e]

theorem lookupCell_eraseCell (a b : Nat) (l : List (Nat × α)) :
    lookupCell b (eraseCell a l) = if b = a then none else lookupCell b l := by
  have := lookupCell_filter (fun k => decide (k ≠ a)) b l
  simp only [decide_eq_true_eq] at this
  unfold eraseCell
  rw [this]
  by_cases h : b = a <;> simp [h]

theorem lookupCell_some_mem {a : Nat} {v : α} {l : List (Nat × α)} (h : lookupCell a l = some v) :
    (a, v) ∈ l := by
  induction l with
  | nil => simp [lookupCell] at h
  | cons c l ih =>
    obtain ⟨k, x⟩ := c
    unfold lookupCell at h
    split at h
    · next e => subst e; cases h; simp
    · exact List.mem_cons_of_mem _ (ih h)

theorem lookupCell_isSome_of_mem {e : Nat × α} {l : List (Nat × α)} (h : e ∈ l) :
    (lookupCell e.1 l).isSome = true := by
  induction l with
  | nil => simp at h
  | cons c l ih =>
    obtain ⟨k, x⟩ := c
    unfold lookupCell
    split
    · rfl
    · rcases List.mem_cons.mp h with rfl | h
      · next hne => exact absurd rfl hne
      · exact ih h

theorem mem_insertCell {a : Nat} {v : α} {l : List (Nat × α)} {e : Nat × α}
    (h : e ∈ insertCell a v l) : e = (a, v) ∨ e ∈ l := by
  induction l with
  | nil => simpa [insertCell] using h
  | cons c l ih =>
    obtain ⟨k, x⟩ := c
    unfold insertCell at h
    split at h
    · simpa using h
    · split at h
      · rcases List.mem_cons.mp h with h | h
        · exact .inl h
        · exact .inr (List.mem_cons_of_mem _ h)
      · rcases List.mem_cons.mp h with h | h
        · exact .inr (h ▸ List.mem_cons_self)
        · exact (ih h).imp id (List.mem_cons_of_mem _)

theorem rising_cons {c : Nat × α} {l : List (Nat × α)} :
    rising (c :: l) = true ↔ (∀ d ∈ l, c.1 < d.1) ∧ rising l = true := by
  simp [rising]

theorem rising_insertCell (a : Nat) (v : α) {l : List (Nat × α)} (h : rising l = true) :
    rising (insertCell a v l) = true := by
  induction l with
  | nil => simp [insertCell, rising]
  | cons c l ih =>
    obtain ⟨k, x⟩ := c
    obtain ⟨hk, hl⟩ := rising_cons.mp h
    unfold insertCell
    split
    · next hak =>
      refine rising_cons.mpr ⟨fun d hd => ?_, h⟩
      rcases List.mem_cons.mp hd with rfl | hd
      · exact hak
      · exact Nat.lt_trans hak (hk d hd)
    · split
      · next e => subst e; exact rising_cons.mpr ⟨hk, hl⟩
      · next h1 h2 =>
        refine rising_cons.mpr ⟨fun d hd => ?_, ih hl⟩
        rcases mem_insertCell hd with rfl | hd
        · show k < a
          omega
        · exact hk d hd

theorem rising_filter (p : Nat × α → Bool) {l : List (Nat × α)} (h : rising l = true) :
    rising (l.filter p) = true := by
  induction l with
  | nil => exact h
  | cons c l ih =>
    obtain ⟨hk, hl⟩ := rising_cons.mp h
    by_cases hc : p c = true
    · rw [List.filter_cons_of_pos hc]
      exact rising_cons.mpr ⟨fun d hd => hk d (List.mem_filter.mp hd).1, ih hl⟩
    · rw [List.filter_cons_of_neg hc]
      exact ih hl

/-! ## The stream memory -/

theorem memory_wf_iff {m : Memory} :
    m.wf = true ↔ rising m = true ∧ ∀ e ∈ m, e.2 ≠ unlistedByte := by
  simp [Memory.wf]

theorem memory_wf_nil : Memory.wf [] = true := rfl

/-- A write of one stream byte keeps the canonical form. -/
theorem memory_wf_setByte (a : Nat) (b : Byte) {m : Memory} (h : m.wf = true) :
    (setByte a b m).wf = true := by
  obtain ⟨h1, h2⟩ := memory_wf_iff.mp h
  unfold setByte
  split
  · exact memory_wf_iff.mpr
      ⟨rising_filter _ h1, fun e he => h2 e (List.mem_filter.mp he).1⟩
  · next hb =>
    refine memory_wf_iff.mpr ⟨rising_insertCell _ _ h1, fun e he => ?_⟩
    rcases mem_insertCell he with rfl | he
    · exact hb
    · exact h2 e he

/-- A write of consecutive stream bytes keeps the canonical form. -/
theorem memory_wf_setBytes (a : Nat) (bs : List Byte) {m : Memory} (h : m.wf = true) :
    (setBytes a bs m).wf = true := by
  induction bs generalizing a m with
  | nil => exact h
  | cons b bs ih => exact ih (a + 1) (memory_wf_setByte a b h)

/-- Leaving out positions keeps the canonical form. -/
theorem memory_wf_filter (p : Host.Cell → Bool) {m : Memory} (h : m.wf = true) :
    Memory.wf (m.filter p) = true := by
  obtain ⟨h1, h2⟩ := memory_wf_iff.mp h
  exact memory_wf_iff.mpr ⟨rising_filter _ h1, fun e he => h2 e (List.mem_filter.mp he).1⟩

theorem memByte_setByte (a b : Nat) (v : Byte) (m : Memory) :
    memByte (setByte a v m) b = if b = a then v else memByte m b := by
  unfold memByte setByte
  split
  · next hv =>
    subst hv
    rw [lookupCell_eraseCell]
    split <;> rfl
  · rw [lookupCell_insertCell]
    split <;> rfl

theorem memByte_setBytes (a b : Nat) (bs : List Byte) (m : Memory) :
    memByte (setBytes a bs m) b =
      if a ≤ b ∧ b < a + bs.length then bs.getD (b - a) unlistedByte else memByte m b := by
  induction bs generalizing a m with
  | nil => simp only [setBytes, List.length_nil]; rw [if_neg (by omega)]
  | cons v bs ih =>
    simp only [setBytes, ih, memByte_setByte, List.length_cons]
    by_cases h1 : b = a
    · subst h1
      rw [if_neg (by omega), if_pos rfl, if_pos (by omega)]
      simp
    · by_cases h2 : a + 1 ≤ b ∧ b < a + 1 + bs.length
      · rw [if_pos h2, if_pos (by omega)]
        obtain ⟨n, hn⟩ : ∃ n, b - a = n + 1 := ⟨b - a - 1, by omega⟩
        rw [hn, show b - (a + 1) = n by omega]
        simp
      · rw [if_neg h2, if_neg h1, if_neg (by omega)]

theorem mem_setByte {a : Nat} {b : Byte} {m : Memory} {e : Host.Cell} (h : e ∈ setByte a b m) :
    e.1 = a ∨ e ∈ m := by
  unfold setByte at h
  split at h
  · exact .inr (List.mem_filter.mp h).1
  · rcases mem_insertCell h with rfl | h
    · exact .inl rfl
    · exact .inr h

theorem mem_setBytes {a : Nat} {bs : List Byte} {m : Memory} {e : Host.Cell}
    (h : e ∈ setBytes a bs m) : (a ≤ e.1 ∧ e.1 < a + bs.length) ∨ e ∈ m := by
  induction bs generalizing a m with
  | nil => exact .inr h
  | cons b bs ih =>
    rcases ih h with h | h
    · left; simp only [List.length_cons]; omega
    · rcases mem_setByte h with h | h
      · left; simp only [List.length_cons]; omega
      · exact .inr h

/-! ## The pixel bank -/

theorem bank_wf_nil : Bank.wf [] = true := rfl

/-- A pixel write keeps the bank's canonical form. -/
theorem bank_wf_insertCell (i : Nat) (p : Pixel) {b : Bank} (h : b.wf = true) :
    Bank.wf (insertCell i p b) = true :=
  rising_insertCell i p h

theorem bankEntry_insertCell (i k : Nat) (p : Pixel) (b : Bank) :
    bankEntry (insertCell i p b) k = if k = i then some p else bankEntry b k :=
  lookupCell_insertCell i k p b

@[simp] theorem bankEntry_nil (k : Nat) : bankEntry [] k = none := rfl

end Sys2Proof.Machine
end

