-- ==== Sys2Proof/Laws/Decode.lean ====
section
/-!
SUPPORT. The parts of the decoder and the encoder undo each other: bytes and numbers, header fields,
colours, control bytes (spec/30_encoding.md).
-/

namespace Sys2Proof

/-! ## Bytes and numbers -/

@[simp] theorem leBytes_length (k v : Nat) : (leBytes k v).length = k := by
  induction k generalizing v with
  | zero => rfl
  | succ k ih => simp [leBytes, ih]

theorem numLE_lt (bs : List Byte) : numLE bs < 256 ^ bs.length := by
  induction bs with
  | nil => simp [numLE]
  | cons b bs ih =>
    have := b.isLt
    simp only [numLE, List.length_cons, Nat.pow_succ]
    omega

theorem numLE_leBytes (k v : Nat) : numLE (leBytes k v) = v % 256 ^ k := by
  induction k generalizing v with
  | zero => simp [numLE, leBytes, Nat.mod_one]
  | succ k ih =>
    have h : v % (256 * 256 ^ k) = v % 256 + 256 * (v / 256 % 256 ^ k) := Nat.mod_mul
    have hp : 256 ^ (k + 1) = 256 * 256 ^ k := Nat.pow_succ'
    rw [leBytes, numLE, ih, BitVec.toNat_ofNat, hp, h]

theorem leBytes_numLE (bs : List Byte) : leBytes bs.length (numLE bs) = bs := by
  induction bs with
  | nil => rfl
  | cons b bs ih =>
    have hb := b.isLt
    simp only [List.length_cons, leBytes, numLE]
    rw [show (b.toNat + 256 * numLE bs) / 256 = numLE bs by omega, ih]
    congr 1
    apply BitVec.eq_of_toNat_eq
    simp only [BitVec.toNat_ofNat]
    omega

/-- `LE32` as the spec writes it (spec/20_memory.md R54). -/
theorem le32_toNat (b0 b1 b2 b3 : Byte) :
    (le32 b0 b1 b2 b3).toNat =
      b0.toNat + 256 * b1.toNat + 65536 * b2.toNat + 16777216 * b3.toNat := by
  have := b0.isLt; have := b1.isLt; have := b2.isLt; have := b3.isLt
  simp only [le32, numLE, BitVec.toNat_ofNat]
  omega

theorem leBytes_le32 (b0 b1 b2 b3 : Byte) :
    leBytes 4 (le32 b0 b1 b2 b3).toNat = [b0, b1, b2, b3] := by
  have h : (le32 b0 b1 b2 b3).toNat = numLE [b0, b1, b2, b3] := by
    rw [le32_toNat]; simp only [numLE]; omega
  rw [h]; exact leBytes_numLE [b0, b1, b2, b3]

/-! ## Header fields -/

/-- A field reads back from its own bytes. -/
theorem takeField_fieldBytes (v : Word) (rest : List Byte) :
    takeField (fieldBytes (some v) ++ rest) = (some v, rest) := by
  have hv := v.isLt
  simp only [fieldBytes, leBytes, List.cons_append, List.nil_append, takeField]
  congr 2
  apply BitVec.eq_of_toNat_eq
  rw [le32_toNat]
  simp only [BitVec.toNat_ofNat]
  omega

/-- What reading a field gives: its bytes and the rest are the bytes read from, and it is missing only
where fewer than four bytes are left. -/
theorem takeField_spec (bs : List Byte) :
    fieldBytes (takeField bs).1 ++ (takeField bs).2 = bs ∧
    ((takeField bs).1 = none → bs.length < 4) := by
  match bs with
  | [] | [_] | [_, _] | [_, _, _] => simp [takeField, fieldBytes]
  | b0 :: b1 :: b2 :: b3 :: r => simp [takeField, fieldBytes, leBytes_le32]

theorem fieldBytes_length (x : Option Word) :
    (fieldBytes x).length = if x.isSome = true then 4 else 0 := by
  cases x <;> simp [fieldBytes]

/-! ## Colours -/

@[simp] theorem colour_bytes_length (c : Colour) : c.bytes.length = 3 := rfl

theorem colours_bytes_length (cs : List Colour) :
    (cs.flatMap Colour.bytes).length = 3 * cs.length := by
  induction cs with
  | nil => rfl
  | cons c cs ih => simp only [List.flatMap_cons, List.length_append, ih, colour_bytes_length,
      List.length_cons]; omega

/-- Colours read back from their own bytes. -/
theorem takeColours_bytes (cs : List Colour) (rest : List Byte) :
    takeColours cs.length (cs.flatMap Colour.bytes ++ rest) = (cs, rest) := by
  induction cs with
  | nil => simp [takeColours]
  | cons c cs ih => simp [takeColours, Colour.bytes] at ih ⊢; simp [ih]

/-- What reading colours gives: their bytes and the rest are the bytes read from, and there are fewer than
asked for only where less than a colour is left. -/
theorem takeColours_spec (n : Nat) (bs : List Byte) :
    (takeColours n bs).1.flatMap Colour.bytes ++ (takeColours n bs).2 = bs ∧
    (takeColours n bs).1.length ≤ n ∧
    ((takeColours n bs).1.length < n → (takeColours n bs).2.length < 3) := by
  induction n generalizing bs with
  | zero => simp [takeColours]
  | succ n ih =>
    match bs with
    | [] | [_] | [_, _] => simp [takeColours]
    | b :: g :: r :: rest =>
      obtain ⟨h1, h2, h3⟩ := ih rest
      simp only [takeColours, List.flatMap_cons, Colour.bytes, List.cons_append, List.nil_append,
        List.length_cons]
      refine ⟨by rw [h1], by omega, fun h => h3 (by omega)⟩

/-- The pixel of a colour as a number: red, green, blue from the top byte down
(spec/20_memory.md R60). -/
theorem colour_pixel_toNat (c : Colour) :
    c.pixel.toNat = 65536 * c.red.toNat + 256 * c.green.toNat + c.blue.toNat := by
  have hr := c.red.isLt; have hg := c.green.isLt; have hb := c.blue.isLt
  have h : c.pixel.toNat = ((c.red.toNat <<< 8 ||| c.green.toNat) <<< 8) ||| c.blue.toNat := by
    show (c.red ++ c.green ++ c.blue).toNat = _
    rw [BitVec.toNat_append, BitVec.toNat_append]
  rw [h, ← Nat.shiftLeft_add_eq_or_of_lt hg, ← Nat.shiftLeft_add_eq_or_of_lt hb,
    Nat.shiftLeft_eq, Nat.shiftLeft_eq]
  omega

/-- A whole literal has as many colours as its count. -/
theorem litColours_iff {m : BitVec 7} {cs : List Colour} :
    WellFormed.litColours m cs = true ↔ cs.length = tokenCount m := by
  simp [WellFormed.litColours, tokenCount]

/-! ## Control bytes -/

theorem tokenCount_pos (m : BitVec 7) : 1 ≤ tokenCount m := by simp [tokenCount]

theorem tokenCount_le (m : BitVec 7) : tokenCount m ≤ 128 := by
  have := m.isLt; simp only [tokenCount]; omega

@[simp] theorem countField_tokenCount (m : BitVec 7) : countField (tokenCount m) = m := by
  apply BitVec.eq_of_toNat_eq
  have := m.isLt
  simp only [countField, tokenCount, BitVec.toNat_ofNat]
  omega

theorem litControl_toNat (m : BitVec 7) : (litControl (tokenCount m)).toNat = m.toNat := by
  have := m.isLt
  simp only [litControl, tokenCount, BitVec.toNat_ofNat]
  omega

theorem runControl_toNat (m : BitVec 7) : (runControl (tokenCount m)).toNat = 128 + m.toNat := by
  have := m.isLt
  simp only [runControl, tokenCount, BitVec.toNat_ofNat]
  omega

theorem branch_le {n : Nat} (h : n ≤ 128) : branch n = (.lit, n) :=
  if_neg (by omega)

theorem branch_gt {n : Nat} (h : 128 < n) : branch n = (.run, n - 128) :=
  if_pos h

/-- The brancher on a literal's control byte. -/
theorem branch_litControl (m : BitVec 7) :
    branch (controlN (litControl (tokenCount m))) = (.lit, tokenCount m) := by
  have h : controlN (litControl (tokenCount m)) = tokenCount m := congrArg (· + 1) (litControl_toNat m)
  rw [h]; exact branch_le (tokenCount_le m)

/-- The brancher on a run's control byte. -/
theorem branch_runControl (m : BitVec 7) :
    branch (controlN (runControl (tokenCount m))) = (.run, tokenCount m) := by
  have h : controlN (runControl (tokenCount m)) = 128 + tokenCount m := by
    have := runControl_toNat m
    simp only [controlN, tokenCount] at this ⊢
    omega
  rw [h, branch_gt (by have := tokenCount_pos m; omega), Nat.add_sub_cancel_left]

theorem controlN_le (b : Byte) : 1 ≤ controlN b ∧ controlN b ≤ 256 := by
  have := b.isLt
  simp only [controlN]
  omega

/-- A control byte with `n <= 128` is a literal's. -/
theorem litControl_controlN {b : Byte} (h : controlN b ≤ 128) : litControl (controlN b) = b := by
  apply BitVec.eq_of_toNat_eq
  have := b.isLt
  simp only [litControl, controlN, BitVec.toNat_ofNat] at h ⊢
  omega

/-- A control byte with `n > 128` is a run's. -/
theorem runControl_controlN {b : Byte} (h : 128 < controlN b) : runControl (controlN b - 128) = b := by
  apply BitVec.eq_of_toNat_eq
  have := b.isLt
  simp only [runControl, controlN, BitVec.toNat_ofNat] at h ⊢
  omega

theorem tokenCount_countField {n : Nat} (h1 : 1 ≤ n) (h2 : n ≤ 128) : tokenCount (countField n) = n := by
  simp only [tokenCount, countField, BitVec.toNat_ofNat]
  omega

/-! ## Formats -/

/-- A whole header record decodes from its own bytes (spec/30_encoding.md R71). -/
theorem decodeHeader_encode (M : List Byte) (hM : M.length = 8) (w t f c : Word) (rest : List Byte) :
    decodeHeader (encode (.hdr M (some w) (some t) (some f) (some c)) ++ rest) =
      .ok (.hdr M (some w) (some t) (some f) (some c), rest) := by
  have e : encode (.hdr M (some w) (some t) (some f) (some c)) ++ rest =
      M ++ (fieldBytes (some w) ++ (fieldBytes (some t) ++
        (fieldBytes (some f) ++ (fieldBytes (some c) ++ rest)))) := by
    simp [encode]
  rw [e]
  unfold decodeHeader
  rw [List.take_left' hM, List.drop_left' hM]
  simp only [takeField_fieldBytes]
  simp [Instr.wellFormed, WellFormed.signature, WellFormed.fields, hM]

end Sys2Proof
end

