-- ==== Sys2Proof/Laws/State.lean ====
section
/-!
SUPPORT. What each named update of the state leaves in each field, so that no later proof unfolds a record
update.
-/

namespace Sys2Proof.Machine.State

/-! ## advance: a read moves the cursor and nothing else -/

@[simp] theorem advance_w (s : State) (k : Nat) : (s.advance k).w = s.w := rfl
@[simp] theorem advance_h (s : State) (k : Nat) : (s.advance k).h = s.h := rfl
@[simp] theorem advance_flag (s : State) (k : Nat) : (s.advance k).flag = s.flag := rfl
@[simp] theorem advance_blocks (s : State) (k : Nat) : (s.advance k).blocks = s.blocks := rfl
@[simp] theorem advance_row (s : State) (k : Nat) : (s.advance k).row = s.row := rfl
@[simp] theorem advance_col (s : State) (k : Nat) : (s.advance k).col = s.col := rfl
@[simp] theorem advance_pstart (s : State) (k : Nat) : (s.advance k).pstart = s.pstart := rfl
@[simp] theorem advance_pend (s : State) (k : Nat) : (s.advance k).pend = s.pend := rfl
@[simp] theorem advance_cur (s : State) (k : Nat) : (s.advance k).cur = s.cur + k := rfl
@[simp] theorem advance_seq (s : State) (k : Nat) : (s.advance k).seq = s.seq := rfl
@[simp] theorem advance_phase (s : State) (k : Nat) : (s.advance k).phase = s.phase := rfl
@[simp] theorem advance_rasterValid (s : State) (k : Nat) : (s.advance k).rasterValid = s.rasterValid := rfl
@[simp] theorem advance_cause (s : State) (k : Nat) : (s.advance k).cause = s.cause := rfl
@[simp] theorem advance_errPos (s : State) (k : Nat) : (s.advance k).errPos = s.errPos := rfl
@[simp] theorem advance_errExpected (s : State) (k : Nat) : (s.advance k).errExpected = s.errExpected := rfl
@[simp] theorem advance_errFound (s : State) (k : Nat) : (s.advance k).errFound = s.errFound := rfl
@[simp] theorem advance_bank (s : State) (k : Nat) : (s.advance k).bank = s.bank := rfl
@[simp] theorem advance_out (s : State) (k : Nat) : (s.advance k).out = s.out := rfl
@[simp] theorem advance_cfg (s : State) (k : Nat) : (s.advance k).cfg = s.cfg := rfl
@[simp] theorem advance_mem (s : State) (k : Nat) : (s.advance k).mem = s.mem := rfl
@[simp] theorem advance_len (s : State) (k : Nat) : (s.advance k).len = s.len := rfl
@[simp] theorem advance_host (s : State) (k : Nat) : (s.advance k).host = s.host := rfl
@[simp] theorem advance_draws (s : State) (k : Nat) : (s.advance k).draws = s.draws := rfl

/-! ## tick: the next host sample -/

@[simp] theorem tick_w (s : State) : (s.tick).w = s.w := rfl
@[simp] theorem tick_h (s : State) : (s.tick).h = s.h := rfl
@[simp] theorem tick_flag (s : State) : (s.tick).flag = s.flag := rfl
@[simp] theorem tick_blocks (s : State) : (s.tick).blocks = s.blocks := rfl
@[simp] theorem tick_row (s : State) : (s.tick).row = s.row := rfl
@[simp] theorem tick_col (s : State) : (s.tick).col = s.col := rfl
@[simp] theorem tick_pstart (s : State) : (s.tick).pstart = s.pstart := rfl
@[simp] theorem tick_pend (s : State) : (s.tick).pend = s.pend := rfl
@[simp] theorem tick_cur (s : State) : (s.tick).cur = s.cur := rfl
@[simp] theorem tick_seq (s : State) : (s.tick).seq = s.seq := rfl
@[simp] theorem tick_phase (s : State) : (s.tick).phase = s.phase := rfl
@[simp] theorem tick_rasterValid (s : State) : (s.tick).rasterValid = s.rasterValid := rfl
@[simp] theorem tick_cause (s : State) : (s.tick).cause = s.cause := rfl
@[simp] theorem tick_errPos (s : State) : (s.tick).errPos = s.errPos := rfl
@[simp] theorem tick_errExpected (s : State) : (s.tick).errExpected = s.errExpected := rfl
@[simp] theorem tick_errFound (s : State) : (s.tick).errFound = s.errFound := rfl
@[simp] theorem tick_bank (s : State) : (s.tick).bank = s.bank := rfl
@[simp] theorem tick_out (s : State) : (s.tick).out = s.out := rfl
@[simp] theorem tick_cfg (s : State) : (s.tick).cfg = s.cfg := rfl
@[simp] theorem tick_mem (s : State) : (s.tick).mem = s.mem := rfl
@[simp] theorem tick_len (s : State) : (s.tick).len = s.len := rfl
@[simp] theorem tick_host (s : State) : (s.tick).host = s.host.tail := rfl
@[simp] theorem tick_draws (s : State) : (s.tick).draws = s.draws := rfl

/-! ## nextPixel: the scan position -/

@[simp] theorem nextPixel_w (s : State) : (s.nextPixel).w = s.w := rfl
@[simp] theorem nextPixel_h (s : State) : (s.nextPixel).h = s.h := rfl
@[simp] theorem nextPixel_flag (s : State) : (s.nextPixel).flag = s.flag := rfl
@[simp] theorem nextPixel_blocks (s : State) : (s.nextPixel).blocks = s.blocks := rfl
@[simp] theorem nextPixel_row (s : State) : (s.nextPixel).row = (nextPosition s.row s.col s.w).1 := rfl
@[simp] theorem nextPixel_col (s : State) : (s.nextPixel).col = (nextPosition s.row s.col s.w).2 := rfl
@[simp] theorem nextPixel_pstart (s : State) : (s.nextPixel).pstart = s.pstart := rfl
@[simp] theorem nextPixel_pend (s : State) : (s.nextPixel).pend = s.pend := rfl
@[simp] theorem nextPixel_cur (s : State) : (s.nextPixel).cur = s.cur := rfl
@[simp] theorem nextPixel_seq (s : State) : (s.nextPixel).seq = s.seq := rfl
@[simp] theorem nextPixel_phase (s : State) : (s.nextPixel).phase = s.phase := rfl
@[simp] theorem nextPixel_rasterValid (s : State) : (s.nextPixel).rasterValid = s.rasterValid := rfl
@[simp] theorem nextPixel_cause (s : State) : (s.nextPixel).cause = s.cause := rfl
@[simp] theorem nextPixel_errPos (s : State) : (s.nextPixel).errPos = s.errPos := rfl
@[simp] theorem nextPixel_errExpected (s : State) : (s.nextPixel).errExpected = s.errExpected := rfl
@[simp] theorem nextPixel_errFound (s : State) : (s.nextPixel).errFound = s.errFound := rfl
@[simp] theorem nextPixel_bank (s : State) : (s.nextPixel).bank = s.bank := rfl
@[simp] theorem nextPixel_out (s : State) : (s.nextPixel).out = s.out := rfl
@[simp] theorem nextPixel_cfg (s : State) : (s.nextPixel).cfg = s.cfg := rfl
@[simp] theorem nextPixel_mem (s : State) : (s.nextPixel).mem = s.mem := rfl
@[simp] theorem nextPixel_len (s : State) : (s.nextPixel).len = s.len := rfl
@[simp] theorem nextPixel_host (s : State) : (s.nextPixel).host = s.host := rfl
@[simp] theorem nextPixel_draws (s : State) : (s.nextPixel).draws = s.draws := rfl

/-! ## faultEntry: the status registers; the unspecified registers take free values -/

@[simp] theorem faultEntry_w (s : State) (c : Cause) (pos : Nat) (exp : Nat) (found : Nat) : (s.faultEntry c pos exp found).w = Config.unspecified32 .w s.draws := rfl
@[simp] theorem faultEntry_h (s : State) (c : Cause) (pos : Nat) (exp : Nat) (found : Nat) : (s.faultEntry c pos exp found).h = Config.unspecified32 .h s.draws := rfl
@[simp] theorem faultEntry_flag (s : State) (c : Cause) (pos : Nat) (exp : Nat) (found : Nat) : (s.faultEntry c pos exp found).flag = Config.unspecified32 .flag s.draws := rfl
@[simp] theorem faultEntry_blocks (s : State) (c : Cause) (pos : Nat) (exp : Nat) (found : Nat) : (s.faultEntry c pos exp found).blocks = Config.unspecified32 .blocks s.draws := rfl
@[simp] theorem faultEntry_row (s : State) (c : Cause) (pos : Nat) (exp : Nat) (found : Nat) : (s.faultEntry c pos exp found).row = (Config.unspecified32 .row s.draws).toNat := rfl
@[simp] theorem faultEntry_col (s : State) (c : Cause) (pos : Nat) (exp : Nat) (found : Nat) : (s.faultEntry c pos exp found).col = (Config.unspecified32 .col s.draws).toNat := rfl
@[simp] theorem faultEntry_pstart (s : State) (c : Cause) (pos : Nat) (exp : Nat) (found : Nat) : (s.faultEntry c pos exp found).pstart = (Config.unspecified64 .pstart s.draws).toNat := rfl
@[simp] theorem faultEntry_pend (s : State) (c : Cause) (pos : Nat) (exp : Nat) (found : Nat) : (s.faultEntry c pos exp found).pend = (Config.unspecified64 .pend s.draws).toNat := rfl
@[simp] theorem faultEntry_cur (s : State) (c : Cause) (pos : Nat) (exp : Nat) (found : Nat) : (s.faultEntry c pos exp found).cur = (Config.unspecified64 .cur s.draws).toNat := rfl
@[simp] theorem faultEntry_seq (s : State) (c : Cause) (pos : Nat) (exp : Nat) (found : Nat) : (s.faultEntry c pos exp found).seq = s.seq := rfl
@[simp] theorem faultEntry_phase (s : State) (c : Cause) (pos : Nat) (exp : Nat) (found : Nat) : (s.faultEntry c pos exp found).phase = .formatError := rfl
@[simp] theorem faultEntry_rasterValid (s : State) (c : Cause) (pos : Nat) (exp : Nat) (found : Nat) : (s.faultEntry c pos exp found).rasterValid = s.rasterValid := rfl
@[simp] theorem faultEntry_cause (s : State) (c : Cause) (pos : Nat) (exp : Nat) (found : Nat) : (s.faultEntry c pos exp found).cause = c := rfl
@[simp] theorem faultEntry_errPos (s : State) (c : Cause) (pos : Nat) (exp : Nat) (found : Nat) : (s.faultEntry c pos exp found).errPos = pos := rfl
@[simp] theorem faultEntry_errExpected (s : State) (c : Cause) (pos : Nat) (exp : Nat) (found : Nat) : (s.faultEntry c pos exp found).errExpected = exp := rfl
@[simp] theorem faultEntry_errFound (s : State) (c : Cause) (pos : Nat) (exp : Nat) (found : Nat) : (s.faultEntry c pos exp found).errFound = found := rfl
@[simp] theorem faultEntry_bank (s : State) (c : Cause) (pos : Nat) (exp : Nat) (found : Nat) : (s.faultEntry c pos exp found).bank = [] := rfl
@[simp] theorem faultEntry_out (s : State) (c : Cause) (pos : Nat) (exp : Nat) (found : Nat) : (s.faultEntry c pos exp found).out = s.out := rfl
@[simp] theorem faultEntry_cfg (s : State) (c : Cause) (pos : Nat) (exp : Nat) (found : Nat) : (s.faultEntry c pos exp found).cfg = s.cfg := rfl
@[simp] theorem faultEntry_mem (s : State) (c : Cause) (pos : Nat) (exp : Nat) (found : Nat) : (s.faultEntry c pos exp found).mem = s.mem := rfl
@[simp] theorem faultEntry_len (s : State) (c : Cause) (pos : Nat) (exp : Nat) (found : Nat) : (s.faultEntry c pos exp found).len = s.len := rfl
@[simp] theorem faultEntry_host (s : State) (c : Cause) (pos : Nat) (exp : Nat) (found : Nat) : (s.faultEntry c pos exp found).host = s.host := rfl
@[simp] theorem faultEntry_draws (s : State) (c : Cause) (pos : Nat) (exp : Nat) (found : Nat) : (s.faultEntry c pos exp found).draws = s.draws + 1 := rfl

/-! ## enterUnsupported -/

@[simp] theorem enterUnsupported_w (s : State) (pos : Nat) (exp : Nat) (found : Nat) : (s.enterUnsupported pos exp found).w = Config.unspecified32 .w s.draws := rfl
@[simp] theorem enterUnsupported_h (s : State) (pos : Nat) (exp : Nat) (found : Nat) : (s.enterUnsupported pos exp found).h = Config.unspecified32 .h s.draws := rfl
@[simp] theorem enterUnsupported_flag (s : State) (pos : Nat) (exp : Nat) (found : Nat) : (s.enterUnsupported pos exp found).flag = Config.unspecified32 .flag s.draws := rfl
@[simp] theorem enterUnsupported_blocks (s : State) (pos : Nat) (exp : Nat) (found : Nat) : (s.enterUnsupported pos exp found).blocks = Config.unspecified32 .blocks s.draws := rfl
@[simp] theorem enterUnsupported_row (s : State) (pos : Nat) (exp : Nat) (found : Nat) : (s.enterUnsupported pos exp found).row = (Config.unspecified32 .row s.draws).toNat := rfl
@[simp] theorem enterUnsupported_col (s : State) (pos : Nat) (exp : Nat) (found : Nat) : (s.enterUnsupported pos exp found).col = (Config.unspecified32 .col s.draws).toNat := rfl
@[simp] theorem enterUnsupported_pstart (s : State) (pos : Nat) (exp : Nat) (found : Nat) : (s.enterUnsupported pos exp found).pstart = (Config.unspecified64 .pstart s.draws).toNat := rfl
@[simp] theorem enterUnsupported_pend (s : State) (pos : Nat) (exp : Nat) (found : Nat) : (s.enterUnsupported pos exp found).pend = (Config.unspecified64 .pend s.draws).toNat := rfl
@[simp] theorem enterUnsupported_cur (s : State) (pos : Nat) (exp : Nat) (found : Nat) : (s.enterUnsupported pos exp found).cur = (Config.unspecified64 .cur s.draws).toNat := rfl
@[simp] theorem enterUnsupported_seq (s : State) (pos : Nat) (exp : Nat) (found : Nat) : (s.enterUnsupported pos exp found).seq = s.seq := rfl
@[simp] theorem enterUnsupported_phase (s : State) (pos : Nat) (exp : Nat) (found : Nat) : (s.enterUnsupported pos exp found).phase = .unsupportedFile := rfl
@[simp] theorem enterUnsupported_rasterValid (s : State) (pos : Nat) (exp : Nat) (found : Nat) : (s.enterUnsupported pos exp found).rasterValid = s.rasterValid := rfl
@[simp] theorem enterUnsupported_cause (s : State) (pos : Nat) (exp : Nat) (found : Nat) : (s.enterUnsupported pos exp found).cause = .unsupportedFormat := rfl
@[simp] theorem enterUnsupported_errPos (s : State) (pos : Nat) (exp : Nat) (found : Nat) : (s.enterUnsupported pos exp found).errPos = pos := rfl
@[simp] theorem enterUnsupported_errExpected (s : State) (pos : Nat) (exp : Nat) (found : Nat) : (s.enterUnsupported pos exp found).errExpected = exp := rfl
@[simp] theorem enterUnsupported_errFound (s : State) (pos : Nat) (exp : Nat) (found : Nat) : (s.enterUnsupported pos exp found).errFound = found := rfl
@[simp] theorem enterUnsupported_bank (s : State) (pos : Nat) (exp : Nat) (found : Nat) : (s.enterUnsupported pos exp found).bank = [] := rfl
@[simp] theorem enterUnsupported_out (s : State) (pos : Nat) (exp : Nat) (found : Nat) : (s.enterUnsupported pos exp found).out = s.out := rfl
@[simp] theorem enterUnsupported_cfg (s : State) (pos : Nat) (exp : Nat) (found : Nat) : (s.enterUnsupported pos exp found).cfg = s.cfg := rfl
@[simp] theorem enterUnsupported_mem (s : State) (pos : Nat) (exp : Nat) (found : Nat) : (s.enterUnsupported pos exp found).mem = s.mem := rfl
@[simp] theorem enterUnsupported_len (s : State) (pos : Nat) (exp : Nat) (found : Nat) : (s.enterUnsupported pos exp found).len = s.len := rfl
@[simp] theorem enterUnsupported_host (s : State) (pos : Nat) (exp : Nat) (found : Nat) : (s.enterUnsupported pos exp found).host = s.host := rfl
@[simp] theorem enterUnsupported_draws (s : State) (pos : Nat) (exp : Nat) (found : Nat) : (s.enterUnsupported pos exp found).draws = s.draws + 1 := rfl

/-! ## enterDone -/

@[simp] theorem enterDone_w (s : State) : (s.enterDone).w = Config.unspecified32 .w s.draws := rfl
@[simp] theorem enterDone_h (s : State) : (s.enterDone).h = Config.unspecified32 .h s.draws := rfl
@[simp] theorem enterDone_flag (s : State) : (s.enterDone).flag = Config.unspecified32 .flag s.draws := rfl
@[simp] theorem enterDone_blocks (s : State) : (s.enterDone).blocks = Config.unspecified32 .blocks s.draws := rfl
@[simp] theorem enterDone_row (s : State) : (s.enterDone).row = (Config.unspecified32 .row s.draws).toNat := rfl
@[simp] theorem enterDone_col (s : State) : (s.enterDone).col = (Config.unspecified32 .col s.draws).toNat := rfl
@[simp] theorem enterDone_pstart (s : State) : (s.enterDone).pstart = (Config.unspecified64 .pstart s.draws).toNat := rfl
@[simp] theorem enterDone_pend (s : State) : (s.enterDone).pend = (Config.unspecified64 .pend s.draws).toNat := rfl
@[simp] theorem enterDone_cur (s : State) : (s.enterDone).cur = (Config.unspecified64 .cur s.draws).toNat := rfl
@[simp] theorem enterDone_seq (s : State) : (s.enterDone).seq = s.seq := rfl
@[simp] theorem enterDone_phase (s : State) : (s.enterDone).phase = .done := rfl
@[simp] theorem enterDone_rasterValid (s : State) : (s.enterDone).rasterValid = s.rasterValid := rfl
@[simp] theorem enterDone_cause (s : State) : (s.enterDone).cause = s.cause := rfl
@[simp] theorem enterDone_errPos (s : State) : (s.enterDone).errPos = s.errPos := rfl
@[simp] theorem enterDone_errExpected (s : State) : (s.enterDone).errExpected = s.errExpected := rfl
@[simp] theorem enterDone_errFound (s : State) : (s.enterDone).errFound = s.errFound := rfl
@[simp] theorem enterDone_bank (s : State) : (s.enterDone).bank = [] := rfl
@[simp] theorem enterDone_out (s : State) : (s.enterDone).out = s.out := rfl
@[simp] theorem enterDone_cfg (s : State) : (s.enterDone).cfg = s.cfg := rfl
@[simp] theorem enterDone_mem (s : State) : (s.enterDone).mem = s.mem := rfl
@[simp] theorem enterDone_len (s : State) : (s.enterDone).len = s.len := rfl
@[simp] theorem enterDone_host (s : State) : (s.enterDone).host = s.host := rfl
@[simp] theorem enterDone_draws (s : State) : (s.enterDone).draws = s.draws + 1 := rfl

/-! ## finish -/

@[simp] theorem finish_w (s : State) : (s.finish).w = s.w := rfl
@[simp] theorem finish_h (s : State) : (s.finish).h = s.h := rfl
@[simp] theorem finish_flag (s : State) : (s.finish).flag = s.flag := rfl
@[simp] theorem finish_blocks (s : State) : (s.finish).blocks = s.blocks := rfl
@[simp] theorem finish_row (s : State) : (s.finish).row = s.row := rfl
@[simp] theorem finish_col (s : State) : (s.finish).col = s.col := rfl
@[simp] theorem finish_pstart (s : State) : (s.finish).pstart = s.pstart := rfl
@[simp] theorem finish_pend (s : State) : (s.finish).pend = s.pend := rfl
@[simp] theorem finish_cur (s : State) : (s.finish).cur = s.pend := rfl
@[simp] theorem finish_seq (s : State) : (s.finish).seq = s.seq + 1 := rfl
@[simp] theorem finish_phase (s : State) : (s.finish).phase = s.phase := rfl
@[simp] theorem finish_rasterValid (s : State) : (s.finish).rasterValid = true := rfl
@[simp] theorem finish_cause (s : State) : (s.finish).cause = s.cause := rfl
@[simp] theorem finish_errPos (s : State) : (s.finish).errPos = s.errPos := rfl
@[simp] theorem finish_errExpected (s : State) : (s.finish).errExpected = s.errExpected := rfl
@[simp] theorem finish_errFound (s : State) : (s.finish).errFound = s.errFound := rfl
@[simp] theorem finish_bank (s : State) : (s.finish).bank = s.bank := rfl
@[simp] theorem finish_out (s : State) : (s.finish).out = s.out ++ [s.raster] := rfl
@[simp] theorem finish_cfg (s : State) : (s.finish).cfg = s.cfg := rfl
@[simp] theorem finish_mem (s : State) : (s.finish).mem = s.mem := rfl
@[simp] theorem finish_len (s : State) : (s.finish).len = s.len := rfl
@[simp] theorem finish_host (s : State) : (s.finish).host = s.host := rfl
@[simp] theorem finish_draws (s : State) : (s.finish).draws = s.draws := rfl

/-! ## closeRelease -/

@[simp] theorem closeRelease_w (s : State) : (s.closeRelease).w = s.w := rfl
@[simp] theorem closeRelease_h (s : State) : (s.closeRelease).h = s.h := rfl
@[simp] theorem closeRelease_flag (s : State) : (s.closeRelease).flag = s.flag := rfl
@[simp] theorem closeRelease_blocks (s : State) : (s.closeRelease).blocks = s.blocks := rfl
@[simp] theorem closeRelease_row (s : State) : (s.closeRelease).row = s.row := rfl
@[simp] theorem closeRelease_col (s : State) : (s.closeRelease).col = s.col := rfl
@[simp] theorem closeRelease_pstart (s : State) : (s.closeRelease).pstart = s.pstart := rfl
@[simp] theorem closeRelease_pend (s : State) : (s.closeRelease).pend = s.pend := rfl
@[simp] theorem closeRelease_cur (s : State) : (s.closeRelease).cur = s.cur := rfl
@[simp] theorem closeRelease_seq (s : State) : (s.closeRelease).seq = s.seq := rfl
@[simp] theorem closeRelease_phase (s : State) : (s.closeRelease).phase = .expectHeader := rfl
@[simp] theorem closeRelease_rasterValid (s : State) : (s.closeRelease).rasterValid = false := rfl
@[simp] theorem closeRelease_cause (s : State) : (s.closeRelease).cause = s.cause := rfl
@[simp] theorem closeRelease_errPos (s : State) : (s.closeRelease).errPos = s.errPos := rfl
@[simp] theorem closeRelease_errExpected (s : State) : (s.closeRelease).errExpected = s.errExpected := rfl
@[simp] theorem closeRelease_errFound (s : State) : (s.closeRelease).errFound = s.errFound := rfl
@[simp] theorem closeRelease_bank (s : State) : (s.closeRelease).bank = s.bank := rfl
@[simp] theorem closeRelease_out (s : State) : (s.closeRelease).out = s.out := rfl
@[simp] theorem closeRelease_cfg (s : State) : (s.closeRelease).cfg = s.cfg := rfl
@[simp] theorem closeRelease_mem (s : State) : (s.closeRelease).mem = s.mem := rfl
@[simp] theorem closeRelease_len (s : State) : (s.closeRelease).len = s.len := rfl
@[simp] theorem closeRelease_host (s : State) : (s.closeRelease).host = s.host := rfl
@[simp] theorem closeRelease_draws (s : State) : (s.closeRelease).draws = s.draws := rfl

/-! ## holdReset -/

@[simp] theorem holdReset_w (s : State) (load : Option HostSetup) : (s.holdReset load).w = 0 := rfl
@[simp] theorem holdReset_h (s : State) (load : Option HostSetup) : (s.holdReset load).h = 0 := rfl
@[simp] theorem holdReset_flag (s : State) (load : Option HostSetup) : (s.holdReset load).flag = 0 := rfl
@[simp] theorem holdReset_blocks (s : State) (load : Option HostSetup) : (s.holdReset load).blocks = 0 := rfl
@[simp] theorem holdReset_row (s : State) (load : Option HostSetup) : (s.holdReset load).row = 0 := rfl
@[simp] theorem holdReset_col (s : State) (load : Option HostSetup) : (s.holdReset load).col = 0 := rfl
@[simp] theorem holdReset_pstart (s : State) (load : Option HostSetup) : (s.holdReset load).pstart = 0 := rfl
@[simp] theorem holdReset_pend (s : State) (load : Option HostSetup) : (s.holdReset load).pend = 0 := rfl
@[simp] theorem holdReset_cur (s : State) (load : Option HostSetup) : (s.holdReset load).cur = (s.loadSetup load).cfg.reservedOffset.toNat := rfl
@[simp] theorem holdReset_seq (s : State) (load : Option HostSetup) : (s.holdReset load).seq = 0 := rfl
@[simp] theorem holdReset_phase (s : State) (load : Option HostSetup) : (s.holdReset load).phase = .expectHeader := rfl
@[simp] theorem holdReset_rasterValid (s : State) (load : Option HostSetup) : (s.holdReset load).rasterValid = false := rfl
@[simp] theorem holdReset_cause (s : State) (load : Option HostSetup) : (s.holdReset load).cause = .none := rfl
@[simp] theorem holdReset_errPos (s : State) (load : Option HostSetup) : (s.holdReset load).errPos = 0 := rfl
@[simp] theorem holdReset_errExpected (s : State) (load : Option HostSetup) : (s.holdReset load).errExpected = 0 := rfl
@[simp] theorem holdReset_errFound (s : State) (load : Option HostSetup) : (s.holdReset load).errFound = 0 := rfl
@[simp] theorem holdReset_bank (s : State) (load : Option HostSetup) : (s.holdReset load).bank = [] := rfl
@[simp] theorem holdReset_out (s : State) (load : Option HostSetup) : (s.holdReset load).out = [] := rfl
@[simp] theorem holdReset_cfg (s : State) (load : Option HostSetup) : (s.holdReset load).cfg = (s.loadSetup load).cfg := rfl
@[simp] theorem holdReset_mem (s : State) (load : Option HostSetup) : (s.holdReset load).mem = (s.loadSetup load).mem := rfl
@[simp] theorem holdReset_len (s : State) (load : Option HostSetup) : (s.holdReset load).len = (s.loadSetup load).len := rfl
@[simp] theorem holdReset_host (s : State) (load : Option HostSetup) : (s.holdReset load).host = s.host := by
  cases load <;> rfl
@[simp] theorem holdReset_draws (s : State) (load : Option HostSetup) : (s.holdReset load).draws = s.draws := by
  cases load <;> rfl

/-! ## bounds -/

@[simp] theorem bounds_w (p : Nat) (s : State) : (bounds p s).w = s.w := rfl
@[simp] theorem bounds_h (p : Nat) (s : State) : (bounds p s).h = s.h := rfl
@[simp] theorem bounds_flag (p : Nat) (s : State) : (bounds p s).flag = s.flag := rfl
@[simp] theorem bounds_blocks (p : Nat) (s : State) : (bounds p s).blocks = s.blocks := rfl
@[simp] theorem bounds_row (p : Nat) (s : State) : (bounds p s).row = 0 := rfl
@[simp] theorem bounds_col (p : Nat) (s : State) : (bounds p s).col = 0 := rfl
@[simp] theorem bounds_pstart (p : Nat) (s : State) : (bounds p s).pstart = alignBlock (p + Config.hdrSize) := rfl
@[simp] theorem bounds_pend (p : Nat) (s : State) : (bounds p s).pend = alignBlock (p + Config.hdrSize) + payloadLength s.blocks := rfl
@[simp] theorem bounds_cur (p : Nat) (s : State) : (bounds p s).cur = alignBlock (p + Config.hdrSize) := rfl
@[simp] theorem bounds_seq (p : Nat) (s : State) : (bounds p s).seq = s.seq := rfl
@[simp] theorem bounds_phase (p : Nat) (s : State) : (bounds p s).phase = .expectPayload := rfl
@[simp] theorem bounds_rasterValid (p : Nat) (s : State) : (bounds p s).rasterValid = s.rasterValid := rfl
@[simp] theorem bounds_cause (p : Nat) (s : State) : (bounds p s).cause = s.cause := rfl
@[simp] theorem bounds_errPos (p : Nat) (s : State) : (bounds p s).errPos = s.errPos := rfl
@[simp] theorem bounds_errExpected (p : Nat) (s : State) : (bounds p s).errExpected = s.errExpected := rfl
@[simp] theorem bounds_errFound (p : Nat) (s : State) : (bounds p s).errFound = s.errFound := rfl
@[simp] theorem bounds_bank (p : Nat) (s : State) : (bounds p s).bank = [] := rfl
@[simp] theorem bounds_out (p : Nat) (s : State) : (bounds p s).out = s.out := rfl
@[simp] theorem bounds_cfg (p : Nat) (s : State) : (bounds p s).cfg = s.cfg := rfl
@[simp] theorem bounds_mem (p : Nat) (s : State) : (bounds p s).mem = s.mem := rfl
@[simp] theorem bounds_len (p : Nat) (s : State) : (bounds p s).len = s.len := rfl
@[simp] theorem bounds_host (p : Nat) (s : State) : (bounds p s).host = s.host := rfl
@[simp] theorem bounds_draws (p : Nat) (s : State) : (bounds p s).draws = s.draws := rfl

/-! ## loadSetup -/

@[simp] theorem loadSetup_none (s : State) : s.loadSetup none = s := rfl
@[simp] theorem loadSetup_cfg (s : State) (u : HostSetup) : (s.loadSetup (some u)).cfg = u.cfg := rfl
@[simp] theorem loadSetup_mem (s : State) (u : HostSetup) :
    (s.loadSetup (some u)).mem = setBytes 0 u.container [] := rfl
@[simp] theorem loadSetup_len (s : State) (u : HostSetup) :
    (s.loadSetup (some u)).len = u.container.length := rfl

/-! ## What reads only some fields -/

@[simp] theorem tick_byteAt (s : State) (a : Nat) : s.tick.byteAt a = s.byteAt a := rfl
@[simp] theorem advance_byteAt (s : State) (k a : Nat) : (s.advance k).byteAt a = s.byteAt a := rfl
@[simp] theorem advance_releaseEnabled (s : State) (k : Nat) :
    (s.advance k).releaseEnabled = s.releaseEnabled := rfl
@[simp] theorem advance_hostNow (s : State) (k : Nat) : (s.advance k).hostNow = s.hostNow := rfl
@[simp] theorem advance_remaining (s : State) (k : Nat) : (s.advance k).remaining = s.remaining := rfl

end Sys2Proof.Machine.State
end

