-- ==== Sys2Proof/Laws/Token.lean ====
section
/-!
SUPPORT. What the token operations can do (spec/40_rle24_decoder.md): one pixel write, the pixels of a
literal and of a run, and fault entry.
-/

namespace Sys2Proof.Machine

/-! ## Flow of a step -/

@[simp] theorem andThen_go (s : State) (k : State → Flow) : (Flow.go s).andThen k = k s := rfl
@[simp] theorem andThen_ended (o : StepOutcome) (k : State → Flow) :
    (Flow.ended o).andThen k = .ended o := rfl
@[simp] theorem outcome_go (s : State) : (Flow.go s).outcome = .next s := rfl
@[simp] theorem outcome_ended (o : StepOutcome) : (Flow.ended o).outcome = o := rfl

/-- `v` differs from `s` at most in the registers and the bank, which are unspecified in a terminal state
(spec/60_exceptions.md R171). -/
def SameOutsideOpen (s v : State) : Prop :=
  v = { s with
    w := v.w, h := v.h, flag := v.flag, blocks := v.blocks, row := v.row, col := v.col,
    pstart := v.pstart, pend := v.pend, cur := v.cur, bank := v.bank }

theorem SameOutsideOpen.trans {s u v : State} (h1 : SameOutsideOpen s u) (h2 : SameOutsideOpen u v) :
    SameOutsideOpen s v := by
  unfold SameOutsideOpen at *
  rw [h2, h1]

/-- Fault entry from such a state leaves the status registers as R167 says. -/
theorem SameOutsideOpen.faulted {s v : State} (h : SameOutsideOpen s v) (c : Cause)
    (pos exp found : Nat) : Faulted s (v.faultEntry c pos exp found) c pos exp found := by
  unfold SameOutsideOpen at h
  rw [h]
  exact ⟨rfl, rfl, rfl, rfl, rfl, rfl, rfl, rfl, rfl, ⟨rfl, rfl⟩, rfl⟩

/-! ## The scan-order indexer -/

/-- One pixel further is one linear index further, in every state. -/
theorem linearIndex_nextPosition (w : Word) (r c : Nat) :
    linearIndex w (nextPosition r c w).1 (nextPosition r c w).2 = linearIndex w r c + 1 := by
  unfold nextPosition linearIndex
  split
  · next h => simp only [Nat.succ_mul]; omega
  · rfl

theorem nextPosition_col_lt {w : Word} {r c : Nat} (h : c < w.toNat) :
    (nextPosition r c w).2 < w.toNat := by
  unfold nextPosition
  split
  · show 0 < w.toNat
    omega
  · show c + 1 < w.toNat
    omega

/-- A scan position inside the width is the quotient and remainder of its linear index. -/
theorem scan_of_linearIndex {w : Word} {r c n : Nat} (hc : c < w.toNat)
    (h : linearIndex w r c = n) : r = n / w.toNat ∧ c = n % w.toNat := by
  subst h
  unfold linearIndex
  constructor
  · rw [Nat.mul_comm, Nat.mul_add_div (by omega), Nat.div_eq_of_lt hc, Nat.add_zero]
  · rw [Nat.mul_comm, Nat.mul_add_mod, Nat.mod_eq_of_lt hc]

/-- The pixels that remain, by linear index (spec/40_rle24_decoder.md R94). -/
theorem linearIndex_add_remaining {s : State} (hr : s.row < s.h.toNat) (hc : s.col < s.w.toNat) :
    linearIndex s.w s.row s.col + s.remaining = s.w.toNat * s.h.toNat := by
  unfold linearIndex State.remaining
  have e : s.row * s.w.toNat + (s.h.toNat - s.row) * s.w.toNat = s.w.toNat * s.h.toNat := by
    rw [← Nat.add_mul, Nat.add_sub_cancel' (Nat.le_of_lt hr), Nat.mul_comm]
  have : 1 * s.w.toNat ≤ (s.h.toNat - s.row) * s.w.toNat := Nat.mul_le_mul_right _ (by omega)
  omega

/-- TOKEN is enabled exactly in these states (spec/40_rle24_decoder.md R91). -/
theorem tokenEnabled_iff {s : State} :
    s.tokenEnabled = true ↔ s.phase = .expectPayload ∧ s.rasterValid = false ∧ s.row < s.h.toNat := by
  simp [State.tokenEnabled, and_assoc]

/-! ## One pixel -/

/-- The state after one pixel write. -/
def State.putPixel (s : State) (p : Pixel) : State :=
  { s with
    bank := insertCell (linearIndex s.w s.row s.col) p s.bank
    row := (nextPosition s.row s.col s.w).1
    col := (nextPosition s.row s.col s.w).2 }

/-- `PIXW` writes one pixel and advances, unless the bank has no such entry. -/
theorem pixw_eq (p : Pixel) (s : State) :
    pixw p s = if linearIndex s.w s.row s.col < s.cfg.pixbankDepth then .go (s.putPixel p)
      else .ended (.fault .bankEntryAbsent) := by
  unfold pixw writePixel
  split <;> rfl

/-! ## Several pixels -/

/-- `t` is `s` after the pixels of `ps` have been written from the scan position on, the cursor moved by
`k`. -/
structure Written (s t : State) (ps : List Pixel) (k : Nat) : Prop where
  frame  : t = { s with cur := s.cur + k, row := t.row, col := t.col, bank := t.bank }
  index  : linearIndex s.w t.row t.col = linearIndex s.w s.row s.col + ps.length
  column : s.col < s.w.toNat → t.col < s.w.toNat
  pixel  : ∀ i, i < ps.length → bankEntry t.bank (linearIndex s.w s.row s.col + i) = ps[i]?
  other  : ∀ i, i < linearIndex s.w s.row s.col ∨ linearIndex s.w s.row s.col + ps.length ≤ i →
    bankEntry t.bank i = bankEntry s.bank i
  bankWf : s.bank.wf = true → t.bank.wf = true

theorem Written.zero (s : State) : Written s s [] 0 :=
  ⟨rfl, rfl, id, fun i h => absurd h (Nat.not_lt_zero i), fun _ _ => rfl, id⟩

/-- One pixel, then the others. -/
theorem Written.cons {s u t : State} {p : Pixel} {ps : List Pixel} {j k : Nat}
    (hu : u = (s.advance j).putPixel p) (h : Written u t ps k) : Written s t (p :: ps) (j + k) := by
  have hi : linearIndex s.w u.row u.col = linearIndex s.w s.row s.col + 1 := by
    subst hu; exact linearIndex_nextPosition _ _ _
  have hw : u.w = s.w := by subst hu; rfl
  have hb : u.bank = insertCell (linearIndex s.w s.row s.col) p s.bank := by subst hu; rfl
  obtain ⟨f, ix, cl, px, ot, wf⟩ := h
  rw [hw] at ix cl px ot
  rw [hi] at ix px ot
  refine ⟨?_, ?_, ?_, ?_, ?_, ?_⟩
  · rw [f, hu]
    simp only [State.putPixel, State.advance]
    congr 1
    omega
  · rw [ix, List.length_cons]; omega
  · intro hc
    exact cl (by subst hu; exact nextPosition_col_lt hc)
  · intro i hi'
    cases i with
    | zero =>
      rw [ot _ (by omega), hb, bankEntry_insertCell]
      simp
    | succ i =>
      rw [List.length_cons] at hi'
      rw [show linearIndex s.w s.row s.col + (i + 1) = linearIndex s.w s.row s.col + 1 + i by omega,
        px i (by omega)]
      simp
  · intro i hi'
    rw [List.length_cons] at hi'
    rw [ot i (by omega), hb, bankEntry_insertCell, if_neg (by omega)]
  · intro h
    exact wf (by rw [hb]; exact bank_wf_insertCell _ _ h)

/-- Some pixels, then others. -/
theorem Written.append {s u t : State} {ps qs : List Pixel} {j k : Nat} (h1 : Written s u ps j)
    (h2 : Written u t qs k) : Written s t (ps ++ qs) (j + k) := by
  obtain ⟨f1, ix1, cl1, px1, ot1, wf1⟩ := h1
  obtain ⟨f2, ix2, cl2, px2, ot2, wf2⟩ := h2
  have hw : u.w = s.w := by rw [f1]
  have hc : u.cur = s.cur + j := by rw [f1]
  rw [hw] at ix2 cl2 px2 ot2
  rw [ix1] at ix2 px2 ot2
  refine ⟨?_, ?_, fun h => cl2 (cl1 h), ?_, ?_, fun h => wf2 (wf1 h)⟩
  · rw [f2, hc, f1]
    simp only
    congr 1
    omega
  · rw [ix2, List.length_append]; omega
  · intro i hi
    rw [List.length_append] at hi
    rw [List.getElem?_append]
    split
    · next h => rw [ot2 _ (by omega), px1 i h]
    · next h =>
      rw [show linearIndex s.w s.row s.col + i =
        linearIndex s.w s.row s.col + ps.length + (i - ps.length) by omega, px2 _ (by omega)]
  · intro i hi
    rw [List.length_append] at hi
    rw [ot2 i (by omega), ot1 i (by omega)]

/-- The pixels of a run: `n` times the pixel where the bank has the entries, else a fault of the model. -/
theorem runPixels_spec (n : Nat) (p : Pixel) (s : State) :
    (∃ t, runPixels n p s = .go t ∧ Written s t (List.replicate n p) 0) ∨
    (runPixels n p s = .ended (.fault .bankEntryAbsent) ∧
      s.cfg.pixbankDepth < linearIndex s.w s.row s.col + n) := by
  induction n generalizing s with
  | zero => exact .inl ⟨s, rfl, Written.zero s⟩
  | succ n ih =>
    unfold runPixels
    rw [pixw_eq]
    split
    · next hd =>
      simp only [andThen_go]
      rcases ih (s.putPixel p) with ⟨t, h1, h2⟩ | ⟨h1, h2⟩
      · exact .inl ⟨t, h1, by simpa [List.replicate_succ] using Written.cons (j := 0) rfl h2⟩
      · refine .inr ⟨h1, ?_⟩
        have : linearIndex s.w (s.putPixel p).row (s.putPixel p).col
            = linearIndex s.w s.row s.col + 1 := linearIndex_nextPosition _ _ _
        have h2 : s.cfg.pixbankDepth < linearIndex s.w (s.putPixel p).row (s.putPixel p).col + n := h2
        omega
    · next hd => exact .inr ⟨rfl, by omega⟩

/-- The pixels of a literal: one for each colour; where the colours run out, TruncatedStream at the first
short one; where the bank has no entry, a fault of the model. -/
theorem literalPixels_spec (n : Nat) (cs : List Colour) (s : State) :
    (∃ t, literalPixels n cs s = .go t ∧ n ≤ cs.length ∧
      Written s t ((cs.take n).map Colour.pixel) (3 * n)) ∨
    (∃ v, literalPixels n cs s = .ended (.next (v.faultEntry .truncatedStream
        (s.cur + 3 * cs.length) 3 (s.len - (s.cur + 3 * cs.length)))) ∧ cs.length < n ∧
      SameOutsideOpen s v) ∨
    (literalPixels n cs s = .ended (.fault .bankEntryAbsent) ∧
      s.cfg.pixbankDepth < linearIndex s.w s.row s.col + min n cs.length) := by
  induction n generalizing cs s with
  | zero => exact .inl ⟨s, rfl, Nat.zero_le _, by simpa using Written.zero s⟩
  | succ n ih =>
    cases cs with
    | nil =>
      exact .inr (.inl ⟨s, rfl, by simp, rfl⟩)
    | cons c cs =>
      have e : literalPixels (n + 1) (c :: cs) s =
          (pixw c.pixel (s.advance 3)).andThen (literalPixels n cs) := rfl
      rw [e, pixw_eq]
      split
      · next hd =>
        simp only [andThen_go]
        rcases ih cs ((s.advance 3).putPixel c.pixel) with ⟨t, h1, h2, h3⟩ | ⟨t, h1, h2, h3⟩ | ⟨h1, h2⟩
        · refine .inl ⟨t, h1, by simpa using h2, ?_⟩
          have := Written.cons (j := 3) rfl h3
          rw [show 3 + 3 * n = 3 * (n + 1) by omega] at this
          simpa using this
        · have hc : ((s.advance 3).putPixel c.pixel).cur = s.cur + 3 := rfl
          have hl : ((s.advance 3).putPixel c.pixel).len = s.len := rfl
          rw [hc, hl, show s.cur + 3 + 3 * cs.length = s.cur + 3 * (c :: cs).length by
            simp only [List.length_cons]; omega] at h1
          refine .inr (.inl ⟨t, h1, by simpa using h2, ?_⟩)
          exact SameOutsideOpen.trans (by rfl) h3
        · refine .inr (.inr ⟨h1, ?_⟩)
          have hi : linearIndex s.w ((s.advance 3).putPixel c.pixel).row
              ((s.advance 3).putPixel c.pixel).col = linearIndex s.w s.row s.col + 1 :=
            linearIndex_nextPosition _ _ _
          have h2 : s.cfg.pixbankDepth < linearIndex s.w ((s.advance 3).putPixel c.pixel).row
              ((s.advance 3).putPixel c.pixel).col + min n cs.length := h2
          simp only [List.length_cons]
          omega
      · next hd =>
        refine .inr (.inr ⟨rfl, ?_⟩)
        have hd : ¬ linearIndex s.w s.row s.col < s.cfg.pixbankDepth := hd
        simp only [List.length_cons]
        omega

/-- What LIT can do where it is enabled. -/
theorem execLit_cases (m : BitVec 7) (cs : List Colour) (s : State) (he : s.tokenEnabled = true) :
    (s.remaining < tokenCount m ∧
      execLit m cs s = .next (s.faultEntry .rasterOverrun s.cur s.remaining (tokenCount m))) ∨
    (tokenCount m ≤ s.remaining ∧ tokenCount m ≤ cs.length ∧ ∃ t, execLit m cs s = .next t ∧
      Written s t ((cs.take (tokenCount m)).map Colour.pixel) (1 + 3 * tokenCount m)) ∨
    (tokenCount m ≤ s.remaining ∧ cs.length < tokenCount m ∧ ∃ v, SameOutsideOpen s v ∧
      execLit m cs s = .next (v.faultEntry .truncatedStream (s.cur + 1 + 3 * cs.length) 3
        (s.len - (s.cur + 1 + 3 * cs.length)))) ∨
    (tokenCount m ≤ s.remaining ∧ execLit m cs s = .fault .bankEntryAbsent ∧
      s.cfg.pixbankDepth < linearIndex s.w s.row s.col + min (tokenCount m) cs.length) := by
  unfold execLit controlAndGuard
  rw [if_pos he]
  by_cases hg : tokenCount m > s.remaining
  · rw [if_pos hg]; exact .inl ⟨hg, rfl⟩
  · rw [if_neg hg, andThen_go]
    have hr : tokenCount m ≤ s.remaining := by omega
    rcases literalPixels_spec (tokenCount m) cs (s.advance 1) with
      ⟨t, h1, h2, h3⟩ | ⟨t, h1, h2, h3⟩ | ⟨h1, h2⟩
    · refine .inr (.inl ⟨hr, h2, t, by rw [h1]; rfl, ?_⟩)
      obtain ⟨f, ix, cl, px, ot, wf⟩ := h3
      refine ⟨?_, ix, cl, px, ot, wf⟩
      rw [f]
      simp only [State.advance]
      congr 1
      omega
    · exact .inr (.inr (.inl ⟨hr, h2, t, SameOutsideOpen.trans (by rfl) h3, by rw [h1]; rfl⟩))
    · exact .inr (.inr (.inr ⟨hr, by rw [h1]; rfl, h2⟩))

/-- What RUN can do where it is enabled. -/
theorem execRun_cases (m : BitVec 7) (colour : Option Colour) (s : State)
    (he : s.tokenEnabled = true) :
    (s.remaining < tokenCount m ∧
      execRun m colour s = .next (s.faultEntry .rasterOverrun s.cur s.remaining (tokenCount m))) ∨
    (tokenCount m ≤ s.remaining ∧ ∃ c, colour = some c ∧ ∃ t, execRun m colour s = .next t ∧
      Written s t (List.replicate (tokenCount m) c.pixel) 4) ∨
    (tokenCount m ≤ s.remaining ∧ colour = none ∧ ∃ v, SameOutsideOpen s v ∧
      execRun m colour s =
        .next (v.faultEntry .truncatedStream (s.cur + 1) 3 (s.len - (s.cur + 1)))) ∨
    (tokenCount m ≤ s.remaining ∧ execRun m colour s = .fault .bankEntryAbsent ∧
      s.cfg.pixbankDepth < linearIndex s.w s.row s.col + tokenCount m) := by
  unfold execRun controlAndGuard
  rw [if_pos he]
  by_cases hg : tokenCount m > s.remaining
  · rw [if_pos hg]; exact .inl ⟨hg, rfl⟩
  · rw [if_neg hg, andThen_go]
    have hr : tokenCount m ≤ s.remaining := by omega
    cases colour with
    | none =>
      exact .inr (.inr (.inl ⟨hr, rfl, s.advance 1, rfl, rfl⟩))
    | some c =>
      have e : colourOperand (some c) (s.advance 1) (runPixels (tokenCount m)) =
          runPixels (tokenCount m) c.pixel ((s.advance 1).advance 3) := rfl
      rw [e]
      rcases runPixels_spec (tokenCount m) c.pixel ((s.advance 1).advance 3) with
        ⟨t, h1, h3⟩ | ⟨h1, h2⟩
      · refine .inr (.inl ⟨hr, c, rfl, t, by rw [h1]; rfl, ?_⟩)
        obtain ⟨f, ix, cl, px, ot, wf⟩ := h3
        exact ⟨f, ix, cl, px, ot, wf⟩
      · exact .inr (.inr (.inr ⟨hr, by rw [h1]; rfl, h2⟩))

/-- A whole token writes its pixels where the image and the bank have room. -/
theorem exec_wholeToken {i : Instr} {s : State} (hw : i.wellFormed = true) (hi : i.context = .token)
    (he : s.tokenEnabled = true) (hc : s.col < s.w.toNat)
    (hd : s.w.toNat * s.h.toNat ≤ s.cfg.pixbankDepth) (hr : i.pixels.length ≤ s.remaining) :
    ∃ t, exec i s = .next t ∧ Written s t i.pixels i.byteLength := by
  have hix := linearIndex_add_remaining (tokenEnabled_iff.mp he).2.2 hc
  cases i with
  | lit m cs =>
    have hl : cs.length = m.toNat + 1 := by simpa [Instr.wellFormed, WellFormed.litColours] using hw
    have hl : cs.length = tokenCount m := hl
    have hr : cs.length ≤ s.remaining := by simpa [Instr.pixels] using hr
    rcases execLit_cases m cs s he with ⟨_, _⟩ | ⟨_, _, t, h1, h2⟩ | ⟨_, _, _⟩ | ⟨_, _, _⟩
    · omega
    · refine ⟨t, h1, ?_⟩
      have e : (cs.take (tokenCount m)).map Colour.pixel = Instr.pixels (.lit m cs) := by
        rw [← hl, List.take_length]; rfl
      rwa [e] at h2
    · omega
    · omega
  | run m colour =>
    obtain ⟨c, rfl⟩ := Option.isSome_iff_exists.mp hw
    have e : Instr.pixels (.run m (some c)) = List.replicate (tokenCount m) c.pixel := by
      simp [Instr.pixels]
    rw [e, List.length_replicate] at hr
    rcases execRun_cases m (some c) s he with ⟨_, _⟩ | ⟨_, c', ec, t, h1, h2⟩ | ⟨_, h, _⟩ | ⟨_, _, _⟩
    · omega
    · cases ec
      exact ⟨t, h1, by rw [e]; exact h2⟩
    · cases h
    · omega
  | hdr M w t f c => cases hi
  | padz => cases hi

/-- A token in a state that parses none is refused. -/
theorem execLit_outOfContext (m : BitVec 7) (cs : List Colour) (s : State)
    (he : s.tokenEnabled = false) : execLit m cs s = .refused (.outOfContext .token) := by
  unfold execLit; rw [if_neg (by simp [he])]

theorem execRun_outOfContext (m : BitVec 7) (colour : Option Colour) (s : State)
    (he : s.tokenEnabled = false) : execRun m colour s = .refused (.outOfContext .token) := by
  unfold execRun; rw [if_neg (by simp [he])]

end Sys2Proof.Machine
end

