-- ==== Sys2Proof/Laws/Header.lean ====
section
/-!
SUPPORT. What the HEADER step can do (spec/41_container_reader.md R121 to R127), case by case.
-/

namespace Sys2Proof.Machine

/-- HEADER is enabled exactly in ExpectHeader (spec/10_state.md R20). -/
theorem headerEnabled_iff {s : State} : s.headerEnabled = true ↔ s.phase = .expectHeader := by
  simp [State.headerEnabled]

@[simp] theorem fieldOperand_some (v : Word) (put : Word → State → State) (s : State) :
    fieldOperand (some v) put s = .go ((put v s).advance 4) := rfl

@[simp] theorem fieldOperand_none (put : Word → State → State) (s : State) :
    fieldOperand none put s =
      .ended (.next (s.faultEntry .truncatedStream s.cur 4 (s.left s.cur))) := rfl

/-- The state in which VALIDATE looks at a whole header that began at `s.cur`. -/
def State.latch (s : State) (w t f c : Word) : State :=
  { s with w := w, h := t, flag := f, blocks := c, cur := s.cur + 24 }

/-- A header whose signature matches and whose fields are all there comes to VALIDATE. -/
theorem execHdr_whole (s : State) (w t f c : Word) (he : s.headerEnabled = true) :
    execHdr (magicBytes s.cfg) (some w) (some t) (some f) (some c) s =
      ((validate s.cur (s.latch w t f c)).andThen fun u => .go (bounds s.cur u)).outcome := by
  unfold execHdr sigcheck
  rw [if_pos he, if_pos rfl]
  rfl

/-- A signature that is not MAGIC ends the run (spec/41_container_reader.md R122). -/
theorem execHdr_mismatch (s : State) {M : List Byte} (w t f c : Option Word)
    (he : s.headerEnabled = true) (hM : M ≠ magicBytes s.cfg) :
    execHdr M w t f c s =
      if s.seq = 0 then .next (s.enterUnsupported s.cur s.cfg.magic.toNat (numLE M))
      else .next s.enterDone := by
  unfold execHdr sigcheck
  rw [if_pos he, if_neg hM]
  split <;> rfl

theorem execHdr_outOfContext (M : List Byte) (w t f c : Option Word) (s : State)
    (he : s.headerEnabled = false) : execHdr M w t f c s = .refused (.outOfContext .header) := by
  unfold execHdr; rw [if_neg (by simp [he])]

/-- The outcome of the checks of VALIDATE (spec/41_container_reader.md R124), in their order. -/
theorem validate_cases (h : Nat) (s : State) :
    (s.flag ≠ s.cfg.encSentinel ∧ validate h s = .ended (.next
      (s.faultEntry .invalidEncodingFlag (h + 16) s.cfg.encSentinel.toNat s.flag.toNat))) ∨
    (s.flag = s.cfg.encSentinel ∧ (s.w = 0 ∨ s.h = 0) ∧ validate h s = .ended (.next
      (s.faultEntry .invalidDimensions (h + 8) 1 (s.w.toNat + 2 ^ 32 * s.h.toNat)))) ∨
    (s.flag = s.cfg.encSentinel ∧ s.w ≠ 0 ∧ s.h ≠ 0 ∧
      s.w.toNat * s.h.toNat > s.cfg.pixbankDepth ∧
      validate h s = .ended (.refused .rasterTooLarge)) ∨
    (s.flag = s.cfg.encSentinel ∧ s.w ≠ 0 ∧ s.h ≠ 0 ∧
      s.w.toNat * s.h.toNat ≤ s.cfg.pixbankDepth ∧ validate h s = .go s) := by
  unfold validate raise
  split
  · next h1 => exact .inl ⟨h1, rfl⟩
  · next h1 =>
    have h1 : s.flag = s.cfg.encSentinel := by simpa using h1
    split
    · next h2 => exact .inr (.inl ⟨h1, h2, rfl⟩)
    · next h2 =>
      obtain ⟨h2, h3⟩ := not_or.mp h2
      split
      · next h4 => exact .inr (.inr (.inl ⟨h1, h2, h3, h4, rfl⟩))
      · next h4 => exact .inr (.inr (.inr ⟨h1, h2, h3, by omega, rfl⟩))

/-- The causes a header can fault with, and that their context stays below the registers' width
(spec/60_exceptions.md R162, R163, R166; spec/41_container_reader.md R135). -/
structure HeaderFault (s : State) (c : Cause) (pos exp found : Nat) : Prop where
  cause    : c = .truncatedStream ∨ c = .invalidEncodingFlag ∨ c = .invalidDimensions
  position : pos ≤ s.cur + 20
  expected : exp < 2 ^ 64
  found    : found < 2 ^ 64 ∨ found ≤ s.len

/-- What HDR can do where it is enabled. -/
theorem execHdr_cases (M : List Byte) (w t f c : Option Word) (s : State)
    (he : s.headerEnabled = true) :
    (M ≠ magicBytes s.cfg ∧ s.seq = 0 ∧
      execHdr M w t f c s = .next (s.enterUnsupported s.cur s.cfg.magic.toNat (numLE M))) ∨
    (M ≠ magicBytes s.cfg ∧ s.seq ≠ 0 ∧ execHdr M w t f c s = .next s.enterDone) ∨
    (M = magicBytes s.cfg ∧ ∃ v cause pos exp found, SameOutsideOpen s v ∧
      HeaderFault s cause pos exp found ∧
      execHdr M w t f c s = .next (v.faultEntry cause pos exp found)) ∨
    (M = magicBytes s.cfg ∧ ∃ wv tv fv cv, w = some wv ∧ t = some tv ∧ f = some fv ∧ c = some cv ∧
      fv = s.cfg.encSentinel ∧ wv ≠ 0 ∧ tv ≠ 0 ∧
      ((wv.toNat * tv.toNat > s.cfg.pixbankDepth ∧
        execHdr M w t f c s = .refused .rasterTooLarge) ∨
       (wv.toNat * tv.toNat ≤ s.cfg.pixbankDepth ∧
        execHdr M w t f c s = .next (bounds s.cur (s.latch wv tv fv cv))))) := by
  by_cases hM : M = magicBytes s.cfg
  · subst hM
    have hex : execHdr (magicBytes s.cfg) w t f c s = ((readFields w t f c (s.advance 8)).andThen
        fun s2 => (validate s.cur s2).andThen fun s3 => .go (bounds s.cur s3)).outcome := by
      unfold execHdr sigcheck
      rw [if_pos he, if_pos rfl]
      rfl
    have short : ∀ k, k ≤ 20 → HeaderFault s .truncatedStream (s.cur + k) 4 (s.len - (s.cur + k)) :=
      fun k hk => ⟨.inl rfl, by omega, by omega, .inr (by omega)⟩
    cases w with
    | none =>
      exact .inr (.inr (.inl ⟨rfl, s.advance 8, _, _, _, _, rfl, short 8 (by omega),
        by rw [hex]; rfl⟩))
    | some wv =>
    cases t with
    | none =>
      exact .inr (.inr (.inl ⟨rfl, { s.advance 12 with w := wv }, _, _, _, _, rfl,
        short 12 (by omega), by rw [hex]; rfl⟩))
    | some tv =>
    cases f with
    | none =>
      exact .inr (.inr (.inl ⟨rfl, { s.advance 16 with w := wv, h := tv }, _, _, _, _, rfl,
        short 16 (by omega), by rw [hex]; rfl⟩))
    | some fv =>
    cases c with
    | none =>
      exact .inr (.inr (.inl ⟨rfl, { s.advance 20 with w := wv, h := tv, flag := fv }, _, _, _, _, rfl,
        short 20 (by omega), by rw [hex]; rfl⟩))
    | some cv =>
      have hw := execHdr_whole s wv tv fv cv he
      have := s.cfg.encSentinel.isLt; have := wv.isLt; have := tv.isLt; have := fv.isLt
      rcases validate_cases s.cur (s.latch wv tv fv cv) with ⟨_, h⟩ | ⟨_, _, h⟩ | ⟨h1, h2, h3, h4, h⟩ |
        ⟨h1, h2, h3, h4, h⟩ <;> rw [h] at hw
      · refine .inr (.inr (.inl ⟨rfl, s.latch wv tv fv cv, _, _, _, _, rfl, ?_, hw⟩))
        refine ⟨.inr (.inl rfl), by omega, ?_, .inl ?_⟩
        · show s.cfg.encSentinel.toNat < 2 ^ 64
          omega
        · show fv.toNat < 2 ^ 64
          omega
      · refine .inr (.inr (.inl ⟨rfl, s.latch wv tv fv cv, _, _, _, _, rfl, ?_, hw⟩))
        refine ⟨.inr (.inr rfl), by omega, by omega, .inl ?_⟩
        show wv.toNat + 2 ^ 32 * tv.toNat < 2 ^ 64
        omega
      · exact .inr (.inr (.inr ⟨rfl, wv, tv, fv, cv, rfl, rfl, rfl, rfl, h1, h2, h3, .inl ⟨h4, hw⟩⟩))
      · exact .inr (.inr (.inr ⟨rfl, wv, tv, fv, cv, rfl, rfl, rfl, rfl, h1, h2, h3, .inr ⟨h4, hw⟩⟩))
  · have h := execHdr_mismatch s w t f c he hM
    by_cases h0 : s.seq = 0
    · rw [if_pos h0] at h; exact .inl ⟨hM, h0, h⟩
    · rw [if_neg h0] at h; exact .inr (.inl ⟨hM, h0, h⟩)

end Sys2Proof.Machine
end

