-- ==== Sys2Proof/Laws/Stream.lean ====
section
/-!
SUPPORT. Reading the stream: a window holds the bytes from its position on, as many as it asks for or as the
stream holds (spec/20_memory.md R51, R52).
-/

namespace Sys2Proof.Machine

theorem byteAt_eq (s : State) (a : Nat) :
    s.byteAt a = if a < s.len then some (memByte s.mem a) else none := by
  simp [State.byteAt, State.avail]

theorem byteAt_isSome {s : State} {a : Nat} : (s.byteAt a).isSome = true ↔ a < s.len := by
  rw [byteAt_eq]; split <;> simp_all

theorem byteAt_eq_none {s : State} {a : Nat} : s.byteAt a = none ↔ s.len ≤ a := by
  rw [byteAt_eq]; split <;> simp_all

/-- A state that differs in neither the stream nor its length reads the same byte. -/
theorem byteAt_congr {s t : State} (hm : t.mem = s.mem) (hl : t.len = s.len) (a : Nat) :
    t.byteAt a = s.byteAt a := by
  rw [byteAt_eq, byteAt_eq, hm, hl]

theorem window_length (s : State) (a k : Nat) : (s.window a k).length = min k (s.len - a) := by
  induction k generalizing a with
  | zero => simp [State.window]
  | succ k ih =>
    unfold State.window
    split
    · next b hb =>
      have : a < s.len := byteAt_isSome.mp (by rw [hb]; rfl)
      simp only [List.length_cons, ih]; omega
    · next hb =>
      have := byteAt_eq_none.mp hb
      simp only [List.length_nil]; omega

theorem window_getElem? (s : State) (a k i : Nat) :
    (s.window a k)[i]? = if i < k then s.byteAt (a + i) else none := by
  induction k generalizing a i with
  | zero => simp [State.window]
  | succ k ih =>
    unfold State.window
    split
    · next b hb =>
      cases i with
      | zero => simp [hb]
      | succ i =>
        rw [List.getElem?_cons_succ, ih, show a + 1 + i = a + (i + 1) by omega]
        simp
    · next hb =>
      have h1 := byteAt_eq_none.mp hb
      have : s.byteAt (a + i) = none := byteAt_eq_none.mpr (by omega)
      simp [this]

/-- The first byte of a window. -/
theorem window_head? (s : State) (a k : Nat) : (s.window a (k + 1)).head? = s.byteAt a := by
  rw [List.head?_eq_getElem?, window_getElem?]; simp

/-- A window that holds all the bytes it asks for, continued. -/
theorem window_add (s : State) (a n k : Nat) (h : (s.window a n).length = n) :
    s.window a (n + k) = s.window a n ++ s.window (a + n) k := by
  apply List.ext_getElem?
  intro i
  rw [List.getElem?_append, h, window_getElem?, window_getElem?, window_getElem?]
  by_cases h1 : i < n
  · rw [if_pos (by omega), if_pos h1, if_pos h1]
  · rw [if_neg h1]
    by_cases hi : i < n + k
    · rw [if_pos hi, if_pos (by omega), show a + n + (i - n) = a + i by omega]
    · rw [if_neg hi, if_neg (by omega)]

/-- A shorter window is the front of a longer one. -/
theorem window_take (s : State) (a n k : Nat) (h : n ≤ k) :
    s.window a n = (s.window a k).take n := by
  apply List.ext_getElem?
  intro i
  rw [List.getElem?_take, window_getElem?, window_getElem?]
  split
  · rw [if_pos (by omega)]
  · rfl

theorem window_congr {s t : State} (a k : Nat)
    (h : ∀ i, i < k → t.byteAt (a + i) = s.byteAt (a + i)) : t.window a k = s.window a k := by
  apply List.ext_getElem?
  intro i
  rw [window_getElem?, window_getElem?]
  split
  · next hi => exact h i hi
  · rfl

/-- A whole item's bytes at the front of a window: the window's length bounds them. -/
theorem window_of_append {s : State} {a k : Nat} {bs rest : List Byte}
    (h : bs ++ rest = s.window a k) :
    s.window a bs.length = bs ∧ a + bs.length ≤ max a s.len := by
  have hl : bs.length + rest.length = min k (s.len - a) := by
    rw [← window_length, ← h, List.length_append]
  constructor
  · rw [window_take s a bs.length k (by omega), ← h, List.take_left]
  · omega

end Sys2Proof.Machine
end

