-- ==== Sys2Proof/Laws/Step.lean ====
section
/-!
SUPPORT. What one step can do: which of the four steps it is, and what FINISH and RELEASE give
(spec/10_state.md R20, spec/41_container_reader.md R128, R130, R131).
-/

namespace Sys2Proof.Machine

/-- Without RESET a step is the sequencer's, and then the host's next sample. -/
theorem step_running {s : State} {ack : Bool} (h : s.hostNow = .running ack)
    (hm : s.legalMagic = true) : step s = mapNext State.tick (runStep s) := by
  simp only [step, sequence, h, hm, if_true]

/-- Without RESET no step runs under a signature that begins with 0x00 (R196). -/
theorem step_illegalMagic {s : State} {ack : Bool} (h : s.hostNow = .running ack)
    (hm : s.legalMagic = false) : step s = .refused .magicStartsWithZero := by
  simp only [step, sequence, h, hm, Bool.false_eq_true, if_false]

/-- Under RESET a step is reset. -/
theorem step_resetting {s : State} {load : Option HostSetup} (h : s.hostNow = .resetting load) :
    step s = .next (s.holdReset load).tick := by
  simp only [step, sequence, h]

/-- Either RESET is asserted or not. -/
theorem hostNow_cases (s : State) :
    (∃ load, s.hostNow = .resetting load) ∨ s.notResetting := by
  cases h : s.hostNow with
  | running a => exact .inr ⟨a, h⟩
  | resetting l => exact .inl ⟨l, rfl⟩

theorem finishEnabled_iff {s : State} :
    s.finishEnabled = true ↔ s.phase = .expectPayload ∧ s.rasterValid = false ∧ s.row = s.h.toNat := by
  simp [State.finishEnabled, and_assoc]

theorem releaseEnabled_iff {s : State} :
    s.releaseEnabled = true ↔
      s.phase = .expectPayload ∧ s.rasterValid = true ∧ s.hostNow = .running true := by
  unfold State.releaseEnabled State.ackNow
  cases s.hostNow with
  | running a => simp [and_assoc]
  | resetting l => simp

theorem runStep_header {s : State} (h : s.headerEnabled = true) : runStep s = runItem .header s := by
  unfold runStep; rw [if_pos h]

theorem runStep_token {s : State} (h : s.tokenEnabled = true) : runStep s = runItem .token s := by
  have := (tokenEnabled_iff.mp h).1
  unfold runStep
  rw [if_neg (by rw [headerEnabled_iff, this]; simp), if_pos h]

theorem runStep_finish {s : State} (h : s.finishEnabled = true) : runStep s = .next s.finish := by
  obtain ⟨h1, h2, h3⟩ := finishEnabled_iff.mp h
  unfold runStep
  rw [if_neg (by rw [headerEnabled_iff, h1]; simp),
    if_neg (by rw [tokenEnabled_iff]; omega), if_pos h]

theorem runStep_release {s : State} (h : s.releaseEnabled = true) : runStep s = release s := by
  obtain ⟨h1, h2, h3⟩ := releaseEnabled_iff.mp h
  unfold runStep
  rw [if_neg (by rw [headerEnabled_iff, h1]; simp),
    if_neg (by rw [tokenEnabled_iff, h2]; simp),
    if_neg (by rw [finishEnabled_iff, h2]; simp), if_pos h]

/-- Where no step is enabled the state stays. -/
theorem runStep_idle {s : State} (h1 : s.headerEnabled = false) (h2 : s.tokenEnabled = false)
    (h3 : s.finishEnabled = false) (h4 : s.releaseEnabled = false) : runStep s = .next s := by
  unfold runStep; simp [h1, h2, h3, h4]

/-- The step is one of these. -/
theorem runStep_cases (s : State) :
    (s.headerEnabled = true ∧ runStep s = runItem .header s) ∨
    (s.tokenEnabled = true ∧ runStep s = runItem .token s) ∨
    (s.finishEnabled = true ∧ runStep s = .next s.finish) ∨
    (s.releaseEnabled = true ∧ runStep s = release s) ∨
    (s.headerEnabled = false ∧ s.tokenEnabled = false ∧ s.finishEnabled = false ∧
      s.releaseEnabled = false ∧ runStep s = .next s) := by
  by_cases h1 : s.headerEnabled = true
  · exact .inl ⟨h1, runStep_header h1⟩
  by_cases h2 : s.tokenEnabled = true
  · exact .inr (.inl ⟨h2, runStep_token h2⟩)
  by_cases h3 : s.finishEnabled = true
  · exact .inr (.inr (.inl ⟨h3, runStep_finish h3⟩))
  by_cases h4 : s.releaseEnabled = true
  · exact .inr (.inr (.inr (.inl ⟨h4, runStep_release h4⟩)))
  · simp only [Bool.not_eq_true] at h1 h2 h3 h4
    exact .inr (.inr (.inr (.inr ⟨h1, h2, h3, h4, runStep_idle h1 h2 h3 h4⟩)))

/-! ## Fetching -/

/-- Only 24 bytes hold a fourth header field. -/
theorem fourthField_length {bs : List Byte} {v : Word}
    (h : (takeField (takeField (takeField (takeField (bs.drop 8)).2).2).2).1 = some v) :
    24 ≤ bs.length := by
  have some4 : ∀ l : List Byte, (takeField l).1 = some v → 4 ≤ l.length := by
    intro l hl
    match l with
    | b0 :: b1 :: b2 :: b3 :: r => simp
    | [] | [_] | [_, _] | [_, _, _] => cases hl
  have rest : ∀ (k : Nat) (l : List Byte), 4 ≤ k → k ≤ (takeField l).2.length → k + 4 ≤ l.length := by
    intro k l hk hl
    match l with
    | b0 :: b1 :: b2 :: b3 :: r => simp [takeField] at hl ⊢; omega
    | [] | [_] | [_, _] | [_, _, _] => simp [takeField] at hl; omega
  have h1 := rest _ _ (by omega) (some4 _ h)
  have h2 := rest _ _ (by omega) h1
  have h3 := rest _ _ (by omega) h2
  rw [List.length_drop] at h3
  omega

/-- A header is always there to run, whole or cut short; a fourth field is there only where the stream
holds 24 bytes. -/
theorem runItem_header (s : State) :
    ∃ M w t f c rest,
      (decode .header (s.fetch .header) = .ok (.hdr M w t f c, rest) ∨
        decode .header (s.fetch .header) = .error (.cutShort (.hdr M w t f c) rest)) ∧
      runItem .header s = execHdr M w t f c s ∧ M.length ≤ 8 ∧
      (M.length = 8 → s.cur + 8 ≤ s.len) ∧ ∀ v, c = some v → s.cur + 24 ≤ s.len := by
  have hlen : ∀ v, (takeField (takeField (takeField (takeField
      ((s.window s.cur 24).drop 8)).2).2).2).1 = some v → s.cur + 24 ≤ s.len := by
    intro v hv
    have := fourthField_length hv
    rw [window_length] at this
    omega
  have hsig : ((s.window s.cur 24).take 8).length = 8 → s.cur + 8 ≤ s.len := by
    rw [List.length_take, window_length]
    omega
  unfold runItem
  have h : decode .header (s.fetch .header) = decodeHeader (s.window s.cur 24) := rfl
  rw [h]
  unfold decodeHeader
  simp only
  split
  · exact ⟨_, _, _, _, _, _, .inl rfl, rfl, by rw [List.length_take]; omega, hsig, hlen⟩
  · exact ⟨_, _, _, _, _, _, .inr rfl, rfl, by rw [List.length_take]; omega, hsig, hlen⟩

/-- A token step runs a literal or a run with the operands the stream holds, or finds no control byte. -/
theorem runItem_token (s : State) :
    (s.len ≤ s.cur ∧ runItem .token s = .next (s.faultEntry .truncatedStream s.cur 1 (s.len - s.cur))) ∨
    (∃ m cs, runItem .token s = execLit m cs s ∧ s.cur + (1 + 3 * cs.length) ≤ s.len) ∨
    (∃ m c, runItem .token s = execRun m c s ∧ (c.isSome = true → s.cur + 4 ≤ s.len)) := by
  unfold runItem
  have h : decode .token (s.fetch .token) = decodeToken (s.window s.cur (384 + 1)) := rfl
  rw [h]
  have hh := window_head? s s.cur 384
  have hlen := window_length s s.cur (384 + 1)
  cases hw : s.window s.cur (384 + 1) with
  | nil =>
    rw [hw] at hh
    exact .inl ⟨byteAt_eq_none.mp hh.symm, rfl⟩
  | cons b bs =>
    rw [hw, List.length_cons] at hlen
    right
    simp only [decodeToken]
    by_cases hn : controlN b ≤ 128
    · left
      rw [branch_le hn]
      have hs := congrArg List.length (takeColours_spec (controlN b) bs).1
      rw [List.length_append, colours_bytes_length] at hs
      simp only
      split
      · next h => split at h <;> cases h; exact ⟨_, _, rfl, by omega⟩
      · next h => split at h <;> cases h; exact ⟨_, _, rfl, by omega⟩
      all_goals next h => split at h <;> cases h
    · right
      rw [branch_gt (by omega)]
      have hs := congrArg List.length (takeColours_spec 1 bs).1
      rw [List.length_append, colours_bytes_length] at hs
      have hc : (takeColours 1 bs).1.head?.isSome = true → 1 ≤ (takeColours 1 bs).1.length := by
        cases (takeColours 1 bs).1 <;> simp
      simp only
      split
      · next h =>
        split at h <;> cases h
        exact ⟨_, _, rfl, fun h => by have := hc h; omega⟩
      · next h =>
        split at h <;> cases h
        exact ⟨_, _, rfl, fun h => by have := hc h; omega⟩
      all_goals next h => split at h <;> cases h

/-! ## The zero skip -/

theorem fetch_pad (s : State) : s.fetch .pad = (s.byteAt s.cur).toList := by
  have h : s.fetch .pad = s.window s.cur 1 := rfl
  rw [h]
  unfold State.window
  cases s.byteAt s.cur <;> rfl

/-- In the zero skip PADZ consumes one byte. -/
theorem execPadz_enabled {s : State} (h : s.releaseEnabled = true) :
    exec .padz s = .next (s.advance 1) := by
  show execPadz s = _
  unfold execPadz; rw [if_pos h]

/-- A zero byte at the cursor: one PADZ, then the rest of the skip. -/
theorem skipz_zero {s : State} (h : s.releaseEnabled = true) (hb : s.byteAt s.cur = some 0x00)
    (n : Nat) : skipz (n + 1) s = skipz n (s.advance 1) := by
  have e : skipz (n + 1) s = bindNext (exec .padz s) (skipz n) := by
    conv_lhs => unfold skipz
    rw [fetch_pad, hb]
    rfl
  rw [e, execPadz_enabled h]
  rfl

/-- No zero byte at the cursor: the skip is over. -/
theorem skipz_stop {s : State} (hb : s.byteAt s.cur ≠ some 0x00) (n : Nat) :
    skipz n s = .next s := by
  cases n with
  | zero => rfl
  | succ n =>
    unfold skipz
    rw [fetch_pad]
    cases h : s.byteAt s.cur with
    | none => rfl
    | some b =>
      have hb' : b ≠ 0x00 := by intro e; subst e; exact hb h
      simp only [Option.toList, decode, decodePad, if_neg hb']

/-- The zero skip moves the cursor over zero bytes to the first position that holds none. -/
theorem skipz_spec (n : Nat) (s : State) (h : s.releaseEnabled = true) (hn : s.len - s.cur ≤ n) :
    ∃ p, s.cur ≤ p ∧ p ≤ max s.cur s.len ∧ (∀ a, s.cur ≤ a → a < p → s.byteAt a = some 0x00) ∧
      s.byteAt p ≠ some 0x00 ∧ skipz n s = .next { s with cur := p } := by
  induction n generalizing s with
  | zero =>
    refine ⟨s.cur, le_refl _, by omega, fun a h1 h2 => by omega, ?_, rfl⟩
    rw [byteAt_eq_none.mpr (by omega)]; simp
  | succ n ih =>
    by_cases hb : s.byteAt s.cur = some 0x00
    · have hlt : s.cur < s.len := byteAt_isSome.mp (by rw [hb]; rfl)
      obtain ⟨p, h1, h2, h3, h4, h5⟩ := ih (s.advance 1) h
        (show s.len - (s.cur + 1) ≤ n by omega)
      have h1 : s.cur + 1 ≤ p := h1
      have h2 : p ≤ max (s.cur + 1) s.len := h2
      refine ⟨p, by omega, by omega, fun a ha1 ha2 => ?_, h4, by rw [skipz_zero h hb, h5]; rfl⟩
      by_cases e : a = s.cur
      · rw [e]; exact hb
      · exact h3 a (show s.cur + 1 ≤ a by omega) ha2
    · exact ⟨s.cur, le_refl _, by omega, fun a h1 h2 => by omega, hb, skipz_stop hb _⟩

/-- RELEASE (spec/41_container_reader.md R130). -/
theorem release_spec (s : State) (h : s.releaseEnabled = true) :
    ∃ p, s.cur ≤ p ∧ p ≤ max s.cur s.len ∧ (∀ a, s.cur ≤ a → a < p → s.byteAt a = some 0x00) ∧
      s.byteAt p ≠ some 0x00 ∧
      release s = .next { s with cur := p, rasterValid := false, phase := .expectHeader } := by
  obtain ⟨p, h1, h2, h3, h4, h5⟩ := skipz_spec (s.left s.cur) s h (le_refl _)
  refine ⟨p, h1, h2, h3, h4, ?_⟩
  unfold release
  rw [h5]
  rfl

/-! ## Inversion of a step -/

/-- An outcome that `mapNext` leaves next was next. -/
theorem mapNext_eq_next {g : State → State} {o : StepOutcome} {t : State}
    (h : mapNext g o = .next t) : ∃ u, o = .next u ∧ t = g u := by
  cases o with
  | next u => cases h; exact ⟨u, rfl, rfl⟩
  | fault r => cases h
  | refused r => cases h

@[simp] theorem mapNext_next (g : State → State) (s : State) :
    mapNext g (.next s) = .next (g s) := rfl

/-- What one step without RESET gives, before the host's next sample: the one place where every kind of
step is told apart. -/
inductive Moves (s : State) : State → Prop
  | unsupported (M : List Byte) (h : s.headerEnabled = true) (h0 : s.seq = 0) (hM : M.length ≤ 8) :
      Moves s (s.enterUnsupported s.cur s.cfg.magic.toNat (numLE M))
  | done (h : s.headerEnabled = true) (h0 : s.seq ≠ 0) : Moves s s.enterDone
  | headerFault (v : State) (c : Cause) (pos exp found : Nat) (h : s.headerEnabled = true)
      (hlen : s.cur + 8 ≤ s.len) (hv : SameOutsideOpen s v) (hc : HeaderFault s c pos exp found) :
      Moves s (v.faultEntry c pos exp found)
  | header (w t f c : Word) (h : s.headerEnabled = true) (hlen : s.cur + 24 ≤ s.len) (hw : w ≠ 0)
      (ht : t ≠ 0) (hd : w.toNat * t.toNat ≤ s.cfg.pixbankDepth) :
      Moves s (bounds s.cur (s.latch w t f c))
  | tokenFault (v : State) (c : Cause) (pos exp found : Nat) (h : s.tokenEnabled = true)
      (hv : SameOutsideOpen s v) (hc : c = .truncatedStream ∨ c = .rasterOverrun)
      (hpos : pos ≤ s.cur + 385) (hexp : exp ≤ 3 ∨ exp = s.remaining)
      (hfound : found ≤ 128 ∨ found ≤ s.len) :
      Moves s (v.faultEntry c pos exp found)
  | token (t : State) (ps : List Pixel) (k : Nat) (h : s.tokenEnabled = true)
      (hps : 1 ≤ ps.length ∧ ps.length ≤ s.remaining) (hk : s.cur + k ≤ s.len)
      (hw : Written s t ps k) : Moves s t
  | finish (h : s.finishEnabled = true) : Moves s s.finish
  | release (p : Nat) (h : s.releaseEnabled = true) (hp : s.cur ≤ p) (hp' : p ≤ max s.cur s.len) :
      Moves s { s with cur := p, rasterValid := false, phase := .expectHeader }
  | idle (h1 : s.headerEnabled = false) (h2 : s.tokenEnabled = false) (h3 : s.finishEnabled = false)
      (h4 : s.releaseEnabled = false) : Moves s s

theorem moves_execLit {s u : State} {m : BitVec 7} {cs : List Colour} (he : s.tokenEnabled = true)
    (hlen : s.cur + (1 + 3 * cs.length) ≤ s.len) (h : execLit m cs s = .next u) : Moves s u := by
  have hm := tokenCount_le m
  have hp := tokenCount_pos m
  rcases execLit_cases m cs s he with ⟨_, h'⟩ | ⟨hr, hl, t, h', h2⟩ | ⟨_, hl, v, h2, h'⟩ | ⟨_, h', _⟩ <;>
    (rw [h'] at h; cases h)
  · exact .tokenFault s _ _ _ _ he rfl (.inr rfl) (by omega) (.inr rfl) (.inl hm)
  · refine .token u _ _ he ?_ (by omega) h2
    rw [List.length_map, List.length_take, Nat.min_eq_left hl]
    exact ⟨hp, hr⟩
  · exact .tokenFault v _ _ _ _ he h2 (.inl rfl) (by omega) (.inl (by omega)) (.inr (by omega))

theorem moves_execRun {s u : State} {m : BitVec 7} {c : Option Colour} (he : s.tokenEnabled = true)
    (hlen : c.isSome = true → s.cur + 4 ≤ s.len) (h : execRun m c s = .next u) : Moves s u := by
  have hm := tokenCount_le m
  have hp := tokenCount_pos m
  rcases execRun_cases m c s he with ⟨_, h'⟩ | ⟨hr, c', e, t, h', h2⟩ | ⟨_, hl, v, h2, h'⟩ | ⟨_, h', _⟩ <;>
    (rw [h'] at h; cases h)
  · exact .tokenFault s _ _ _ _ he rfl (.inr rfl) (by omega) (.inr rfl) (.inl hm)
  · refine .token u _ _ he ?_ (hlen (by rw [e]; rfl)) h2
    rw [List.length_replicate]
    exact ⟨hp, hr⟩
  · exact .tokenFault v _ _ _ _ he h2 (.inl rfl) (by omega) (.inl (by omega)) (.inr (by omega))

/-- Every step without RESET is one of the moves. -/
theorem runStep_moves {s u : State} (h : runStep s = .next u) : Moves s u := by
  rcases runStep_cases s with ⟨he, h'⟩ | ⟨he, h'⟩ | ⟨he, h'⟩ | ⟨he, h'⟩ | ⟨h1, h2, h3, h4, h'⟩ <;>
    rw [h'] at h
  · obtain ⟨M, w, t, f, c, rest, _, hr, hM, hsig, hlen⟩ := runItem_header s
    rw [hr] at h
    rcases execHdr_cases M w t f c s he with ⟨_, h0, h'⟩ | ⟨_, h0, h'⟩ |
      ⟨hm, v, ca, po, ex, fo, hv, hf, h'⟩ |
      ⟨_, wv, tv, fv, cv, rfl, rfl, rfl, rfl, _, hw, ht, ⟨_, h'⟩ | ⟨hcap, h'⟩⟩ <;>
      (rw [h'] at h; cases h)
    · exact .unsupported M he h0 hM
    · exact .done he h0
    · exact .headerFault v _ _ _ _ he (hsig (by rw [hm]; exact leBytes_length _ _)) hv hf
    · exact .header wv tv fv cv he (hlen _ rfl) hw ht hcap
  · rcases runItem_token s with ⟨hl, h'⟩ | ⟨m, cs, h', hlen⟩ | ⟨m, c, h', hlen⟩
    · rw [h'] at h; cases h
      exact .tokenFault s _ _ _ _ he rfl (.inl rfl) (by omega) (.inl (by omega)) (.inr (by omega))
    · rw [h'] at h; exact moves_execLit he hlen h
    · rw [h'] at h; exact moves_execRun he hlen h
  · cases h; exact .finish he
  · obtain ⟨p, h1, h2, _, _, h5⟩ := release_spec s he
    rw [h5] at h; cases h
    exact .release p he h1 h2
  · cases h; exact .idle h1 h2 h3 h4

/-- A step is reset, or one of the moves and the host's next sample. -/
theorem step_cases {s t : State} (h : step s = .next t) :
    (∃ load, s.hostNow = .resetting load ∧ t = (s.holdReset load).tick) ∨
    (s.notResetting ∧ s.legalMagic = true ∧ ∃ u, Moves s u ∧ t = u.tick) := by
  rcases hostNow_cases s with ⟨load, hl⟩ | ⟨ack, ha⟩
  · rw [step_resetting hl] at h; cases h
    exact .inl ⟨load, hl, rfl⟩
  · cases hm : s.legalMagic with
    | false => rw [step_illegalMagic ha hm] at h; cases h
    | true =>
      rw [step_running ha hm] at h
      obtain ⟨u, hu, ht⟩ := mapNext_eq_next h
      exact .inr ⟨⟨ack, ha⟩, rfl, u, runStep_moves hu, ht⟩

end Sys2Proof.Machine
end

