-- ==== Sys2Proof/Laws/Inputs.lean ====
section
/-!
SUPPORT. A meaning reads neither the stream memory nor the host's samples (PADZ asks for the acknowledge
only): with other inputs it does the same and leaves them as they are (spec/10_state.md R36).
-/

namespace Sys2Proof.Machine

/-- The state with another stream content and other host samples. -/
def State.withInputs (m : Memory) (hs : List HostSample) (s : State) : State :=
  { s with mem := m, host := hs }

/-- A flow under a change of inputs. -/
def Flow.withInputs (m : Memory) (hs : List HostSample) : Flow → Flow
  | .go s => .go (s.withInputs m hs)
  | .ended o => .ended (mapNext (State.withInputs m hs) o)

variable {m : Memory} {hs : List HostSample}

theorem andThen_withInputs (f : Flow) (k : State → Flow)
    (hk : ∀ s, k (s.withInputs m hs) = (k s).withInputs m hs) :
    (f.withInputs m hs).andThen k = (f.andThen k).withInputs m hs := by
  cases f with
  | go s => exact hk s
  | ended o => rfl

theorem outcome_withInputs (f : Flow) :
    (f.withInputs m hs).outcome = mapNext (State.withInputs m hs) f.outcome := by
  cases f <;> rfl

theorem pixw_withInputs (p : Pixel) (s : State) :
    pixw p (s.withInputs m hs) = (pixw p s).withInputs m hs := by
  rw [pixw_eq, pixw_eq]
  have e : (s.withInputs m hs).putPixel p = (s.putPixel p).withInputs m hs := rfl
  rw [e]
  have e2 : linearIndex (s.withInputs m hs).w (s.withInputs m hs).row (s.withInputs m hs).col =
      linearIndex s.w s.row s.col := rfl
  have e3 : (s.withInputs m hs).cfg = s.cfg := rfl
  rw [e2, e3]
  split <;> rfl

theorem literalPixels_withInputs (n : Nat) (cs : List Colour) (s : State) :
    literalPixels n cs (s.withInputs m hs) = (literalPixels n cs s).withInputs m hs := by
  induction n generalizing cs s with
  | zero => rfl
  | succ n ih =>
    cases cs with
    | nil => rfl
    | cons c cs =>
      show (pixw c.pixel ((s.advance 3).withInputs m hs)).andThen (literalPixels n cs) = _
      rw [pixw_withInputs, andThen_withInputs _ _ (ih cs)]
      rfl

theorem runPixels_withInputs (n : Nat) (p : Pixel) (s : State) :
    runPixels n p (s.withInputs m hs) = (runPixels n p s).withInputs m hs := by
  induction n generalizing s with
  | zero => rfl
  | succ n ih =>
    show (pixw p (s.withInputs m hs)).andThen (runPixels n p) = _
    rw [pixw_withInputs, andThen_withInputs _ _ ih]
    rfl

theorem controlAndGuard_withInputs (n : Nat) (s : State) :
    controlAndGuard n (s.withInputs m hs) = (controlAndGuard n s).withInputs m hs := by
  unfold controlAndGuard
  by_cases h : n > s.remaining
  · rw [if_pos h, if_pos (show n > (s.withInputs m hs).remaining from h)]; rfl
  · rw [if_neg h, if_neg (show ¬ n > (s.withInputs m hs).remaining from h)]; rfl

theorem execLit_withInputs (k : BitVec 7) (cs : List Colour) (s : State) :
    execLit k cs (s.withInputs m hs) = mapNext (State.withInputs m hs) (execLit k cs s) := by
  unfold execLit
  have e : (s.withInputs m hs).tokenEnabled = s.tokenEnabled := rfl
  rw [e, controlAndGuard_withInputs, andThen_withInputs _ _ (literalPixels_withInputs _ _),
    outcome_withInputs]
  split <;> rfl

theorem execRun_withInputs (k : BitVec 7) (c : Option Colour) (s : State) :
    execRun k c (s.withInputs m hs) = mapNext (State.withInputs m hs) (execRun k c s) := by
  unfold execRun
  have e : (s.withInputs m hs).tokenEnabled = s.tokenEnabled := rfl
  rw [e, controlAndGuard_withInputs, andThen_withInputs, outcome_withInputs]
  · split <;> rfl
  · intro t
    cases c with
    | none => rfl
    | some c => exact runPixels_withInputs _ _ (t.advance 3)

theorem validate_withInputs (h : Nat) (s : State) :
    validate h (s.withInputs m hs) = (validate h s).withInputs m hs := by
  have hx : ∀ (p q r : Prop) [Decidable p] [Decidable q] [Decidable r] (a b c d : Flow),
      (if p then a else if q then b else if r then c else d).withInputs m hs =
        if p then a.withInputs m hs else if q then b.withInputs m hs
        else if r then c.withInputs m hs else d.withInputs m hs := by
    intro p q r _ _ _ a b c d
    split
    · rfl
    · split
      · rfl
      · split <;> rfl
  unfold validate
  rw [hx]
  rfl

theorem fieldOperand_withInputs (x : Option Word) (put : Word → State → State) (s : State)
    (hp : ∀ v u, put v (State.withInputs m hs u) = (put v u).withInputs m hs) :
    fieldOperand x put (s.withInputs m hs) = (fieldOperand x put s).withInputs m hs := by
  cases x with
  | none => rfl
  | some v =>
    show Flow.go ((put v (s.withInputs m hs)).advance 4) = _
    rw [hp]
    rfl

theorem execHdr_withInputs (M : List Byte) (w t f c : Option Word) (s : State) :
    execHdr M w t f c (s.withInputs m hs) =
      mapNext (State.withInputs m hs) (execHdr M w t f c s) := by
  have hs1 : sigcheck M (s.withInputs m hs) = (sigcheck M s).withInputs m hs := by
    unfold sigcheck
    have e1 : (s.withInputs m hs).cfg = s.cfg := rfl
    have e2 : (s.withInputs m hs).seq = s.seq := rfl
    rw [e1, e2]
    split
    · rfl
    · split <;> rfl
  have hf : ∀ u, readFields w t f c (State.withInputs m hs u) =
      (readFields w t f c u).withInputs m hs := by
    intro u
    unfold readFields
    rw [fieldOperand_withInputs _ latchW _ (fun _ _ => rfl), andThen_withInputs]
    intro u
    rw [fieldOperand_withInputs _ latchH _ (fun _ _ => rfl), andThen_withInputs]
    intro u
    rw [fieldOperand_withInputs _ latchFlag _ (fun _ _ => rfl), andThen_withInputs]
    intro u
    exact fieldOperand_withInputs _ latchBlocks _ (fun _ _ => rfl)
  unfold execHdr
  have e : (s.withInputs m hs).headerEnabled = s.headerEnabled := rfl
  have e2 : (s.withInputs m hs).cur = s.cur := rfl
  rw [e, e2, hs1, andThen_withInputs, outcome_withInputs]
  · split <;> rfl
  · intro u
    rw [hf, andThen_withInputs]
    intro u
    rw [validate_withInputs, andThen_withInputs]
    intro u
    rfl

/-- With other inputs an item of a HEADER or TOKEN step does the same. -/
theorem exec_withInputs (i : Instr) (hi : i.context ≠ .pad) (s : State) :
    exec i (s.withInputs m hs) = mapNext (State.withInputs m hs) (exec i s) := by
  cases i with
  | lit k cs => exact execLit_withInputs k cs s
  | run k c => exact execRun_withInputs k c s
  | hdr M w t f c => exact execHdr_withInputs M w t f c s
  | padz => exact absurd rfl hi

end Sys2Proof.Machine
end

