-- ==== Sys2Proof/Laws/PerInstr.lean ====
section
/-!
SUPPORT. Statements per instruction. Family EncodedLength: a whole item encodes to as many bytes as its
format gives it (spec/30_encoding.md R71, R76, R77).
-/

namespace Sys2Proof.Laws.EncodedLength

/-- A whole item encodes to its format's length. -/
def Statement (i : Instr) : Prop :=
  i.wellFormed = true → (encode i).length = i.byteLength

theorem lit (m : BitVec 7) (colours : List Colour) : Statement (.lit m colours) := by
  intro h
  have hl := litColours_iff.mp h
  simp only [encode, Instr.byteLength, List.length_cons, colours_bytes_length, hl]
  omega

theorem run (m : BitVec 7) (colour : Option Colour) : Statement (.run m colour) := by
  intro h
  obtain ⟨c, rfl⟩ := Option.isSome_iff_exists.mp h
  rfl

theorem hdr (M : List Byte) (w t f c : Option Word) : Statement (.hdr M w t f c) := by
  intro h
  simp only [Instr.wellFormed, WellFormed.signature, WellFormed.fields, Bool.and_eq_true,
    beq_iff_eq] at h
  obtain ⟨hM, ⟨⟨hw, ht⟩, hf⟩, hc⟩ := h
  simp only [encode, List.length_append, fieldBytes_length, hM, hw, ht, hf, hc, Instr.byteLength,
    if_true]

theorem padz : Statement .padz := fun _ => rfl

end Sys2Proof.Laws.EncodedLength
end

