-- ==== Sys2Proof/Laws/Run.lean ====
section
/-!
SUPPORT. Runs of several steps: how they split, what the host's samples add to them, and how far the scan
position can get in one token (spec/40_rle24_decoder.md R94, R99).
-/

namespace Sys2Proof.Machine

/-- A run of `m + n` steps is a run of `m` and then one of `n`. -/
theorem runSteps_add (m n : Nat) (s : State) :
    runSteps (m + n) s = bindNext (runSteps m s) (runSteps n) := by
  induction m generalizing s with
  | zero => rw [Nat.zero_add]; rfl
  | succ m ih =>
    rw [Nat.add_right_comm]
    show bindNext (step s) (runSteps (m + n)) =
      bindNext (bindNext (step s) (runSteps m)) (runSteps n)
    cases step s with
    | next t => exact ih t
    | fault r => rfl
    | refused r => rfl

/-- A host that drives no RESET drives none in this step. -/
theorem neverResetting_now {s : State} (h : s.neverResetting) : s.notResetting := by
  unfold State.notResetting State.hostNow
  cases hs : s.host with
  | nil => exact ⟨true, rfl⟩
  | cons x xs => exact h x (by rw [hs]; exact List.mem_cons_self)

/-- ... and none in the steps after it. -/
theorem neverResetting_tail {s t : State} (h : s.neverResetting) (ht : t.host = s.host.tail) :
    t.neverResetting := by
  intro x hx
  rw [ht] at hx
  exact h x (List.mem_of_mem_tail hx)

/-- A move leaves the host's samples for the step to take. -/
theorem moves_host {s u : State} (h : Moves s u) : u.host = s.host := by
  cases h with
  | headerFault v c pos exp found he _ hv hf => unfold SameOutsideOpen at hv; rw [hv]; rfl
  | tokenFault v c pos exp found he hv => unfold SameOutsideOpen at hv; rw [hv]; rfl
  | token _ ps k he hps hk hw => rw [hw.frame]
  | _ => rfl

/-- A move leaves the configuration. -/
theorem moves_cfg {s u : State} (h : Moves s u) : u.cfg = s.cfg := by
  cases h with
  | headerFault v c pos exp found he _ hv hf => unfold SameOutsideOpen at hv; rw [hv]; rfl
  | tokenFault v c pos exp found he hv => unfold SameOutsideOpen at hv; rw [hv]; rfl
  | token _ ps k he hps hk hw => rw [hw.frame]
  | _ => rfl

/-- A signature that may be run depends on the configuration alone. -/
theorem legalMagic_congr {s t : State} (h : t.cfg = s.cfg) : t.legalMagic = s.legalMagic := by
  unfold State.legalMagic; rw [h]

/-- A whole token has at least one pixel (spec/40_rle24_decoder.md R93). -/
theorem pixels_pos {i : Instr} (hw : i.wellFormed = true) (hc : i.context = .token) :
    1 ≤ i.pixels.length := by
  cases i with
  | lit m cs =>
    have h1 := litColours_iff.mp hw
    have h2 := tokenCount_pos m
    simp only [Instr.pixels, List.length_map]
    omega
  | run m c =>
    obtain ⟨c, rfl⟩ := Option.isSome_iff_exists.mp hw
    have h2 := tokenCount_pos m
    simp only [Instr.pixels, Option.toList_some, List.flatMap_cons, List.flatMap_nil, List.append_nil,
      List.length_replicate]
    exact h2
  | hdr => cases hc
  | padz => cases hc

/-- What the host's samples are does not matter for what has been written. -/
theorem Written.withHost {s t : State} {ps : List Pixel} {k : Nat} (h : Written s t ps k)
    (x : List HostSample) : Written { s with host := x } { t with host := x } ps k := by
  obtain ⟨f, ix, cl, px, ot, wf⟩ := h
  refine ⟨?_, ix, cl, px, ot, wf⟩
  rw [f]

/-- After pixels that fit, the row is at most the height, and at the height the column is 0. -/
theorem Written.rowBound {s t : State} {ps : List Pixel} {k : Nat} (h : Written s t ps k)
    (hc : s.col < s.w.toNat)
    (hle : linearIndex s.w s.row s.col + ps.length ≤ s.w.toNat * s.h.toNat) :
    t.row ≤ s.h.toNat ∧ (t.row = s.h.toNat → t.col = 0) := by
  have hix := h.index
  have hcol := h.column hc
  unfold linearIndex at hix hle
  rw [← hix] at hle
  refine ⟨?_, fun e => ?_⟩
  · by_contra hn
    have h1 : s.w.toNat * (s.h.toNat + 1) ≤ s.w.toNat * t.row := Nat.mul_le_mul_left _ (by omega)
    rw [Nat.mul_comm t.row] at hle
    rw [Nat.mul_succ] at h1
    omega
  · rw [e, Nat.mul_comm] at hle
    omega

end Sys2Proof.Machine
end

