-- ==== Sys2Proof/Tests/Slice0.lean ====
section
/-!
SUPPORT. Tests of single definitions and single steps, with expected results from the spec's worked examples
(each named), the WellFormed smoke tests, and for every statement with hypotheses a witness that meets them.
-/

namespace Sys2Proof.Tests

open Sys2Proof.Machine

/-! ## WellFormed refuses what is not whole -/

theorem test_wf_lit_short : (Instr.lit 1 [⟨1, 2, 3⟩]).wellFormed = false := by decide
theorem test_wf_lit_long : (Instr.lit 0 [⟨1, 2, 3⟩, ⟨4, 5, 6⟩]).wellFormed = false := by decide
theorem test_wf_run_noColour : (Instr.run 5 none).wellFormed = false := by decide
theorem test_wf_hdr_signature :
    (Instr.hdr [0x53] (some 1) (some 1) (some 1) (some 1)).wellFormed = false := by decide
theorem test_wf_hdr_field :
    (Instr.hdr (magicBytes Config.test) (some 1) (some 1) (some 1) none).wellFormed = false := by decide
theorem test_wf_whole :
    (Instr.lit 1 [⟨1, 2, 3⟩, ⟨4, 5, 6⟩]).wellFormed = true ∧ (Instr.run 5 (some ⟨1, 2, 3⟩)).wellFormed = true ∧
    (Instr.hdr (magicBytes Config.test) (some 1) (some 1) (some 1) (some 1)).wellFormed = true ∧
    Instr.padz.wellFormed = true := by decide

/-! ## Decoding, from words written out by the spec's encodings -/

/-- Control byte `0 0000001` (k = 0, m = 1), then two colours B, G, R (R73, R75; bytes of R95's example). -/
theorem test_decode_lit :
    decode .token [0b00000001, 0x01, 0x02, 0x03, 0x04, 0x05, 0x06, 0xFF] =
      .ok (.lit 1 [⟨0x01, 0x02, 0x03⟩, ⟨0x04, 0x05, 0x06⟩], [0xFF]) := by decide

/-- Control byte `1 0000010` (k = 1, m = 2), then one colour (P1's `RUN 3, #112233`). -/
theorem test_decode_run :
    decode .token [0b10000010, 0x33, 0x22, 0x11, 0x00] =
      .ok (.run 2 (some ⟨0x33, 0x22, 0x11⟩), [0x00]) := by decide

/-- R123's worked example: width bytes `40 01 00 00` are 320; the other fields in the order of R71. -/
theorem test_decode_hdr :
    decode .header [0x53, 0x50, 0x4C, 0x41, 0x53, 0x48, 0x21, 0x21, 0x40, 0x01, 0x00, 0x00,
      0x02, 0x00, 0x00, 0x00, 0x03, 0x00, 0x00, 0x00, 0x04, 0x00, 0x00, 0x80] =
      .ok (.hdr [0x53, 0x50, 0x4C, 0x41, 0x53, 0x48, 0x21, 0x21] (some 320) (some 2) (some 3)
        (some 0x80000004), []) := by decide

/-- R77: 0x00 is a padding byte; any other byte, or none, ends the skip. -/
theorem test_decode_padz :
    decode .pad [0x00, 0x00] = .ok (.padz, [0x00]) ∧ decode .pad [0x53] = .error (.notPadding 0x53) ∧
    decode .pad [] = .error .endOfStream := by decide

/-- The rest of the rejections: what the stream's end cuts off. -/
theorem test_decode_rejects :
    decode .token [] = .error .noControlByte ∧
    decode .token [0x80, 0x01, 0x02] = .error (.cutShort (.run 0 none) [0x01, 0x02]) ∧
    decode .token [0x01, 0x01, 0x02, 0x03, 0x04] =
      .error (.cutShort (.lit 1 [⟨0x01, 0x02, 0x03⟩]) [0x04]) ∧
    decode .header [0x53, 0x50] = .error (.cutShort (.hdr [0x53, 0x50] none none none none) []) := by decide

/-- Table V-T: control byte to kind and count. -/
theorem test_branch_VT :
    branch (controlN 0x01) = (.lit, 2) ∧ branch (controlN 0x7E) = (.lit, 127) ∧
    branch (controlN 0x7F) = (.lit, 128) ∧ branch (controlN 0x80) = (.run, 1) ∧
    branch (controlN 0x81) = (.run, 2) ∧ branch (controlN 0xFE) = (.run, 127) := by decide

/-- TC's signature: the bytes `SPLASH!!` in stream order (95_test_vectors section 1). -/
theorem test_magic_bytes :
    magicBytes Config.test = [0x53, 0x50, 0x4C, 0x41, 0x53, 0x48, 0x21, 0x21] := by decide

/-- The opcode table's words; HDR's is R71's 192-bit pattern of R121's example, first byte most significant. -/
theorem test_table_words :
    decodeTableWord 8 0x00 = some .padz ∧ decodeTableWord 8 0x01 = some (.lit 1 [⟨0, 0, 0⟩, ⟨0, 0, 0⟩]) ∧
    decodeTableWord 8 0x80 = some (.run 0 (some ⟨0, 0, 0⟩)) ∧
    decodeTableWord 192 0x53504C4153482121_02000000_03000000_01000000_01000000 =
      some (.hdr [0x53, 0x50, 0x4C, 0x41, 0x53, 0x48, 0x21, 0x21] (some 2) (some 3) (some 1) (some 1)) := by
  decide

/-! ## Small states -/

/-- The stream `bs` before its header at position 0, after `seq` images. -/
def atHeader (seq : Nat) (bs : List Byte) : State :=
  { State.reset with seq := seq, mem := setBytes 0 bs [], len := bs.length }

/-- A `w` by `h` image at `(row, col)` with the token bytes `bs` at position 0. -/
def atToken (w h : Word) (row col : Nat) (bs : List Byte) : State :=
  { State.reset with
    phase := .expectPayload, w := w, h := h, row := row, col := col
    mem := setBytes 0 bs [], len := bs.length }

/-- A 1 by 1 raster handed over at position 512, with the bytes `bs` there. -/
def atHandOver (bs : List Byte) (host : List HostSample) : State :=
  { State.reset with
    phase := .expectPayload, rasterValid := true, w := 1, h := 1, row := 1, col := 0
    pstart := 512, pend := 512, cur := 512, seq := 1
    bank := [(0, 0x302010)], out := [⟨1, 1, 1, [(0, 0x302010)]⟩]
    mem := setBytes 512 bs [], len := 512 + bs.length, host := host }

/-- An outcome's next state. -/
def nextOf : StepOutcome → Option State
  | .next s => some s
  | .fault _ => none
  | .refused _ => none

/-- An outcome's refusal. -/
def refusalOf : StepOutcome → Option Refusal
  | .next _ => none
  | .fault _ => none
  | .refused r => some r

/-- A header of TC as bytes (R82). -/
def hdrBytes (w t f c : Word) : List Byte :=
  encode (.hdr (magicBytes Config.test) (some w) (some t) (some f) (some c))

/-! ## Single steps, with the spec's own results -/

/-- R95's worked example: a literal of 2 across the row boundary of a 2 by 2 image. -/
theorem test_lit_R95 :
    (nextOf (step (atToken 2 2 0 1 [0x01, 0x01, 0x02, 0x03, 0x04, 0x05, 0x06]))).map
      (fun t => (t.cur, t.row, t.col, t.bank)) =
      some (7, 1, 1, [(1, 0x030201), (2, 0x060504)]) := by decide

/-- As V-F1: a literal of 2 whose second colour has 2 bytes: TruncatedStream, expected 3, found 2. -/
theorem test_lit_VF1 :
    (nextOf (step (atToken 2 1 0 0 [0x01, 0x01, 0x02, 0x03, 0x04, 0x05]))).map
      (fun t => (t.phase, t.cause, t.errPos, t.errExpected, t.errFound, t.seq)) =
      some (.formatError, .truncatedStream, 4, 3, 2, 0) := by decide

/-- R98's position: P1's `RUN 3` in a 2 by 2 image. -/
theorem test_run_P1 :
    (nextOf (step (atToken 2 2 0 0 [0x82, 0x33, 0x22, 0x11]))).map
      (fun t => (t.cur, t.row, t.col, t.bank)) =
      some (4, 1, 1, [(0, 0x112233), (1, 0x112233), (2, 0x112233)]) := by decide

/-- As V-F3: the run overruns and its colour is missing: RasterOverrun, not TruncatedStream. -/
theorem test_run_VF3 :
    (nextOf (step (atToken 1 1 0 0 [0xFF]))).map
      (fun t => (t.phase, t.cause, t.errPos, t.errExpected, t.errFound)) =
      some (.formatError, .rasterOverrun, 0, 1, 128) := by decide

/-- R121's worked example. -/
theorem test_hdr_R121 :
    (nextOf (step (atHeader 0 (hdrBytes 2 3 1 1)))).map
      (fun t => [t.w.toNat, t.h.toNat, t.flag.toNat, t.blocks.toNat, t.pstart, t.pend, t.cur, t.row, t.col]) =
      some [2, 3, 1, 1, 512, 1024, 512, 0, 0] := by decide

/-- V-H3: a cut-off signature is UnsupportedFile, its missing bytes 0 in ERR_FOUND. -/
theorem test_hdr_VH3 :
    (nextOf (step (atHeader 0 [0x53, 0x50, 0x4C, 0x41, 0x53, 0x48]))).map
      (fun t => (t.phase, t.cause, t.errPos, t.errExpected, t.errFound)) =
      some (.unsupportedFile, .unsupportedFormat, 0, 0x21214853414C5053, 0x00004853414C5053) := by decide

/-- R130's worked example, three zero bytes and 0x53, from 512. -/
theorem test_padz_R130 :
    (nextOf (step (atHandOver [0x00, 0x00, 0x00, 0x53] []))).map
      (fun t => (t.cur, t.phase, t.rasterValid, t.seq)) = some (515, .expectHeader, false, 1) := by decide

/-- V-A. -/
theorem test_align_VA :
    alignBlock 0 = 0 ∧ alignBlock 1 = 512 ∧ alignBlock 24 = 512 ∧ alignBlock 511 = 512 ∧
    alignBlock 512 = 512 ∧ alignBlock 513 = 1024 ∧ alignBlock 1048 = 1536 ∧ alignBlock 2075 = 2560 := by
  decide

/-- V-N's corner cases. -/
theorem test_next_VN :
    nextPosition 0 4294967294 4294967295 = (1, 0) ∧ nextPosition 0 4294967293 4294967295 = (0, 4294967294) ∧
    nextPosition 4294967294 0 1 = (4294967295, 0) := by decide

/-- V-C. -/
theorem test_colour_VC :
    Colour.pixel ⟨0x10, 0x20, 0x30⟩ = 0x302010 ∧ Colour.pixel ⟨0x00, 0x00, 0xFF⟩ = 0xFF0000 := by decide

/-- The memory operations keep the canonical form: a zero byte is not listed. -/
theorem test_memory_canonical :
    Memory.wf State.reset.mem = true ∧ setBytes 0 [1, 0, 2] [] = [(0, 1), (2, 2)] ∧
    setByte 0 0 [(0, 1), (2, 2)] = [(2, 2)] := by decide

/-- A table word placed in the reset state runs in the next step. -/
theorem test_placed_pad : (nextOf (step (State.reset.withFetchWord 8 0x00))).map State.phase =
    some .expectHeader := by decide
set_option maxRecDepth 20000 in
theorem test_placed_run : (nextOf (step (State.reset.withFetchWord 8 0x80))).map State.cur =
    some 4 := by decide
theorem test_placed_hdr : (nextOf (step (State.reset.withFetchWord 192 0))).map State.phase =
    some .unsupportedFile := by decide
theorem test_placed_hdr_R121 : (nextOf (step (State.reset.withFetchWord 192
    0x53504C4153482121_02000000_03000000_01000000_01000000))).map State.pend = some 1024 := by decide

/-- A state under a signature whose first byte is `b`. -/
def underMagic (b : Byte) : State :=
  { State.reset with cfg := { Config.test with magic := 0x21214853414C5000 ||| b.zeroExtend 64 } }

/-- R196, and the witness for MagicMustNotStartWithZero: MAGIC[0] = 0x00 is refused outside RESET, any
other first byte is run. -/
theorem test_magic_R196 :
    (underMagic 0x00).hostNow = .running true ∧ (underMagic 0x00).legalMagic = false ∧
    refusalOf (step (underMagic 0x00)) = some .magicStartsWithZero ∧
    (underMagic 0x01).legalMagic = true ∧ (nextOf (step (underMagic 0x01))).isSome = true ∧
    (nextOf (step { underMagic 0x00 with host := [.resetting none] })).isSome = true := by decide

/-- The witnesses' states have TC's signature (or, above, one that begins with 0x01). -/
theorem witness_legalMagic :
    State.reset.legalMagic = true ∧ (∀ n bs, (atHeader n bs).legalMagic = true) ∧
    (∀ w h r c bs, (atToken w h r c bs).legalMagic = true) ∧
    (∀ bs host, (atHandOver bs host).legalMagic = true) :=
  have h : State.reset.legalMagic = true := by decide
  ⟨h, fun _ _ => h, fun _ _ _ _ _ => h, fun _ _ => h⟩

/-! ## Witnesses: the hypotheses of each statement can be met -/

theorem witness_ResetEntersTableState :
    (atHeader 0 []).hostNow ≠ .resetting none ∧
    { State.reset with host := [.resetting none] }.hostNow = .resetting none ∧
    { State.reset with host := [.resetting (some ⟨Config.test, [1]⟩)] }.hostNow =
      .resetting (some ⟨Config.test, [1]⟩) := by decide

theorem witness_FirstStep :
    ∃ s t : State, s.hostNow = .resetting none ∧ step s = .next t ∧ t.notResetting ∧
      t.legalMagic = true :=
  ⟨{ State.reset with host := [.resetting none] }, State.reset, rfl, rfl, ⟨true, rfl⟩, by decide⟩

theorem witness_TerminalStatesStay :
    ∀ p ∈ [Phase.done, .unsupportedFile, .formatError],
      { State.reset with phase := p }.phase.terminal = true ∧
      { State.reset with phase := p }.notResetting ∧
      { State.reset with phase := p }.legalMagic = true := by
  intro p hp
  refine ⟨?_, ⟨true, rfl⟩, witness_legalMagic.1⟩
  revert p
  decide

theorem witness_BlockWaits :
    (atHandOver [] [.running false]).phase = .expectPayload ∧
    (atHandOver [] [.running false]).rasterValid = true ∧
    (atHandOver [] [.running false]).hostNow = .running false ∧
    (atHandOver [] [.running false]).legalMagic = true := by decide

/-- For AcknowledgeIgnoredWithoutRaster and FaultEntryWritesStatus. -/
theorem witness_NoRaster :
    State.reset.rasterValid = false ∧ (atToken 1 1 0 0 [0x00]).rasterValid = false := by decide

theorem witness_HeaderFields : (magicBytes Config.test).length = 8 := by decide

/-- The longest literal, the longest run, a header and a padding byte are whole. -/
theorem witness_DecodeOfEncode :
    (Instr.lit 127 (List.replicate 128 ⟨1, 2, 3⟩)).wellFormed = true ∧
    (Instr.run 127 (some ⟨1, 2, 3⟩)).wellFormed = true ∧
    (Instr.hdr (magicBytes Config.test) (some 0) (some 0xFFFFFFFF) (some 0) (some 0)).wellFormed = true ∧
    Instr.padz.wellFormed = true :=
  ⟨by simp [Instr.wellFormed, WellFormed.litColours], by decide, by decide, by decide⟩

theorem witness_EncodeOfDecode :
    decode .token [0x00, 0x10, 0x20, 0x30, 0x40] = .ok (.lit 0 [⟨0x10, 0x20, 0x30⟩], [0x40]) ∧
    decode .token [0x00, 0x10] = .error (.cutShort (.lit 0 []) [0x10]) := by decide

theorem witness_StepRunsDecodedItem :
    (atToken 1 1 0 0 [0x00, 1, 2, 3]).parses .token ∧ (atToken 1 1 0 0 [0x00, 1, 2, 3]).notResetting ∧
    (atToken 1 1 0 0 [0x00, 1, 2, 3]).legalMagic = true ∧ (atHeader 0 [0x53]).legalMagic = true ∧
    decode .token ((atToken 1 1 0 0 [0x00, 1, 2, 3]).fetch .token) = .ok (.lit 0 [⟨1, 2, 3⟩], []) ∧
    (atHeader 0 [0x53]).parses .header ∧ (atHeader 0 [0x53]).notResetting ∧
    decode .header ((atHeader 0 [0x53]).fetch .header) =
      .error (.cutShort (.hdr [0x53] none none none none) []) :=
  ⟨.inr ⟨rfl, by decide⟩, ⟨true, rfl⟩, by decide, by decide, by decide, .inl ⟨rfl, by decide⟩, ⟨true, rfl⟩, by decide⟩

/-- For ReleaseRunsPadding, ReleaseSkipsToFirstNonZero and PadzCompletes: a zero byte, another, none. -/
theorem witness_Release :
    (atHandOver [0x00, 0x53] []).releaseEnabled = true ∧
    (atHandOver [0x00, 0x53] []).byteAt 512 = some 0x00 ∧
    (atHandOver [0x53] []).releaseEnabled = true ∧ (atHandOver [0x53] []).byteAt 512 = some 0x53 ∧
    (atHandOver [] []).releaseEnabled = true ∧ (atHandOver [] []).byteAt 512 = none ∧
    (atHandOver [0x00, 0x53] []).legalMagic = true ∧ (atHandOver [0x53] []).legalMagic = true ∧
    (atHandOver [] []).legalMagic = true := by decide

/-- SignatureSurvivesZeroSkip: two bytes of padding, then the signature. -/
theorem witness_SignatureSurvives :
    (atHandOver (0x00 :: 0x00 :: hdrBytes 1 1 1 1) []).releaseEnabled = true ∧
    (atHandOver (0x00 :: 0x00 :: hdrBytes 1 1 1 1) []).legalMagic = true ∧
    (∀ p, 512 ≤ p → p < 514 →
      (atHandOver (0x00 :: 0x00 :: hdrBytes 1 1 1 1) []).byteAt p = some 0x00) ∧
    (atHandOver (0x00 :: 0x00 :: hdrBytes 1 1 1 1) []).window 514 8 = magicBytes Config.test := by
  refine ⟨by decide, by decide, fun p h1 h2 => ?_, by decide⟩
  obtain rfl | rfl : p = 512 ∨ p = 513 := by omega
  all_goals decide

/-- A literal of one at position 0; the byte at 4 is another one in the other memory. -/
theorem witness_BytesOutsideItem :
    ∃ (s : State) (m : Memory), s.parses .token ∧ s.notResetting ∧
      decode .token (s.fetch .token) = .ok (.lit 0 [⟨1, 2, 3⟩], [4]) ∧
      (∀ a, s.cur ≤ a → a < s.cur + 4 → memByte m a = memByte s.mem a) ∧ memByte m 4 ≠ memByte s.mem 4 :=
  ⟨atToken 1 1 0 0 [0x00, 1, 2, 3, 4], setBytes 0 [0x00, 1, 2, 3, 5] [], .inr ⟨rfl, by decide⟩, ⟨true, rfl⟩,
    by decide, fun a _ h => (by decide : ∀ a < 4, memByte (setBytes 0 [0x00, 1, 2, 3, 5] []) a =
      memByte (setBytes 0 [0x00, 1, 2, 3, 4] []) a) a (by simpa [atToken, State.reset, Config.test] using h),
    by decide⟩

/-- The last column and the last row of the largest image. -/
theorem witness_NextPosition :
    0xFFFFFFFE < (0xFFFFFFFF : Word).toNat ∧ 0 < (1 : Word).toNat := by decide

/-- A literal of two that fills the image exactly, from the last column of a row; for
ColourIsBlueGreenRedOnTheWire too. -/
theorem witness_LitCompletes :
    (atToken 1 2 0 0 []).tokenEnabled = true ∧ (atToken 1 2 0 0 []).col < (atToken 1 2 0 0 []).w.toNat ∧
    (atToken 1 2 0 0 []).w.toNat * (atToken 1 2 0 0 []).h.toNat ≤ (atToken 1 2 0 0 []).cfg.pixbankDepth ∧
    WellFormed.litColours 1 [⟨1, 2, 3⟩, ⟨4, 5, 6⟩] = true ∧
    tokenCount 1 ≤ (atToken 1 2 0 0 []).remaining := by decide

/-- V-G: 16 by 16 at (8, 0), the longest run fits exactly. -/
theorem witness_RunCompletes :
    (atToken 16 16 8 0 []).tokenEnabled = true ∧
    (atToken 16 16 8 0 []).col < (atToken 16 16 8 0 []).w.toNat ∧
    (atToken 16 16 8 0 []).w.toNat * (atToken 16 16 8 0 []).h.toNat ≤
      (atToken 16 16 8 0 []).cfg.pixbankDepth ∧
    tokenCount 127 ≤ (atToken 16 16 8 0 []).remaining := by decide

theorem witness_TokenFrame :
    (nextOf (exec (.lit 0 [⟨1, 2, 3⟩]) (atToken 1 2 0 0 []))).map State.phase = some .expectPayload ∧
    (nextOf (exec (.run 1 (some ⟨1, 2, 3⟩)) (atToken 1 2 0 0 []))).map State.phase =
      some .expectPayload := by decide

/-- V-G: 16 by 16 at (8, 1), 127 remain and the longest token is one too many. -/
theorem witness_OverrunFaults :
    (atToken 16 16 8 1 []).tokenEnabled = true ∧ (atToken 16 16 8 1 []).remaining = 127 ∧
    tokenCount 127 > (atToken 16 16 8 1 []).remaining := by decide

/-- For LitCutShortFaults (no colour at all, and one of two) and RunCutShortFaults. -/
theorem witness_CutShortFaults :
    (atToken 2 1 0 0 [0x01]).tokenEnabled = true ∧ (atToken 2 1 0 0 [0x01]).col < (2 : Word).toNat ∧
    (2 : Word).toNat * (1 : Word).toNat ≤ (atToken 2 1 0 0 [0x01]).cfg.pixbankDepth ∧
    tokenCount 1 ≤ (atToken 2 1 0 0 [0x01]).remaining ∧
    ([] : List Colour).length < tokenCount 1 ∧ [(⟨1, 2, 3⟩ : Colour)].length < tokenCount 1 := by decide

theorem witness_MissingControlByte :
    (atToken 1 1 0 0 []).tokenEnabled = true ∧ (atToken 1 1 0 0 []).notResetting ∧
    (atToken 1 1 0 0 []).legalMagic = true ∧ (atToken 1 1 0 0 []).len ≤ (atToken 1 1 0 0 []).cur :=
  ⟨by decide, ⟨true, rfl⟩, by decide, by decide⟩

theorem witness_Align : 1 ≤ 512 ∧ 512 % 512 = 0 ∧ alignBlock 1 = 512 := by decide

/-- A bank that the image fills exactly. -/
theorem witness_HdrCompletes :
    { State.reset with cfg := { Config.test with pixbankDepth := 6 } }.headerEnabled = true ∧
    1 ≤ (2 : Word).toNat ∧ 1 ≤ (3 : Word).toNat ∧
    (2 : Word).toNat * (3 : Word).toNat ≤
      { State.reset with cfg := { Config.test with pixbankDepth := 6 } }.cfg.pixbankDepth := by decide

/-- The first iteration and a later one; seven of eight bytes, and none. -/
theorem witness_SignatureMismatch :
    (atHeader 0 []).headerEnabled = true ∧ (atHeader 0 []).seq = 0 ∧
    (atHeader 2 []).headerEnabled = true ∧ (atHeader 2 []).seq ≠ 0 ∧
    [0x53, 0x50, 0x4C, 0x41, 0x53, 0x48, 0x21, 0x3F] ≠ magicBytes (atHeader 0 []).cfg ∧
    [] ≠ magicBytes (atHeader 2 []).cfg := by decide

theorem witness_ShortField : (atHeader 0 (hdrBytes 4 4 0 1)).headerEnabled = true := by decide

/-- Each of the three checks of a header can be the one that fires. -/
theorem witness_HeaderChecks :
    State.reset.headerEnabled = true ∧ (0 : Word) ≠ State.reset.cfg.encSentinel ∧
    (1 : Word) = State.reset.cfg.encSentinel ∧ ((0 : Word) = 0 ∨ (5 : Word) = 0) ∧
    ((5 : Word) = 0 ∨ (0 : Word) = 0) ∧
    { State.reset with cfg := { Config.test with pixbankDepth := 5 } }.headerEnabled = true ∧
    (2 : Word) ≠ 0 ∧ (3 : Word) ≠ 0 ∧
    (2 : Word).toNat * (3 : Word).toNat >
      { State.reset with cfg := { Config.test with pixbankDepth := 5 } }.cfg.pixbankDepth := by decide

theorem witness_HdrFrame :
    (nextOf (exec (.hdr (magicBytes Config.test) (some 2) (some 3) (some 1) (some 1)) State.reset)).map
      State.phase = some .expectPayload := by decide

/-- A complete 1 by 1 image, not handed over yet. -/
theorem witness_Finish :
    (atToken 1 1 1 0 []).finishEnabled = true ∧ (atToken 1 1 1 0 []).notResetting ∧
    (atToken 1 1 1 0 []).legalMagic = true :=
  ⟨by decide, ⟨true, rfl⟩, by decide⟩

theorem witness_ItemsKeep :
    (nextOf (exec (.run 0 (some ⟨1, 2, 3⟩)) (atToken 1 1 0 0 []))).isSome = true ∧
    (nextOf (exec .padz (atHandOver [0x00] []))).isSome = true ∧
    (nextOf (exec (.hdr [] none none none none) State.reset)).isSome = true := by decide

/-- OutputGrowsOnlyByFinish: a step of each kind. -/
theorem witness_OutputGrows :
    (atToken 1 1 1 0 []).notResetting ∧ (nextOf (step (atToken 1 1 1 0 []))).isSome = true ∧
    (atToken 1 1 0 0 [0x80, 1, 2, 3]).notResetting ∧
    (nextOf (step (atToken 1 1 0 0 [0x80, 1, 2, 3]))).isSome = true :=
  ⟨⟨true, rfl⟩, by decide, ⟨true, rfl⟩, by decide⟩

/-- A raster in the host's hands meets the invariant. -/
theorem witness_Inv : (atHandOver [0x53] []).Inv := by
  constructor
  · constructor <;> intro _ <;> decide
  · refine ⟨by decide, fun _ i => ?_⟩
    show (bankEntry [(0, 0x302010)] i).isSome = true ↔ i < 1
    cases i with
    | zero => decide
    | succ i => simp [bankEntry, lookupCell]
  · constructor <;> intro _ <;> decide
  · constructor <;> intro _ <;> decide
  · refine ⟨by decide, fun i y h => ?_, fun y h => ?_⟩
    · have h : [(⟨1, 1, 1, [(0, 0x302010)]⟩ : Yielded)][i]? = some y := h
      cases i with
      | zero => cases h; rfl
      | succ i => cases h
    · have h : y ∈ [(⟨1, 1, 1, [(0, 0x302010)]⟩ : Yielded)] := h
      rw [List.mem_singleton] at h
      subst h
      intro r c hr hc
      have hr : r < 1 := hr
      have hc : c < 1 := hc
      obtain rfl : r = 0 := by omega
      obtain rfl : c = 0 := by omega
      decide
  · constructor <;> decide
  · constructor <;> decide

/-- For StepKeepsInvariant, StepKeepsRegisterWidths, OnlyCapacityStopsStep, OnlyTableTransitions and
RunReachesTerminalState: the same state, its bounds, its host and its step. -/
theorem witness_Invariants :
    (atHandOver [0x53] []).HandOverInv ∧ (atHandOver [0x53] []).PositionInv ∧
    (atHandOver [0x53] []).neverResetting ∧ (atHandOver [0x53] []).notResetting ∧
    (atHandOver [0x53] []).legalMagic = true ∧
    (nextOf (step (atHandOver [0x53] []))).isSome = true := by
  refine ⟨witness_Inv.handOver, ?_, fun x hx => ?_, ⟨true, rfl⟩, by decide, by decide⟩
  · constructor
    · constructor
      · decide
      · intro u h; cases h
    all_goals decide
  · cases hx

/-- BankKeptWhileHandedOver, with the host still reading and with its acknowledge. -/
theorem witness_BankKept :
    (atHandOver [] [.running false]).HandOverInv ∧ (atHandOver [] [.running false]).rasterValid = true ∧
    (atHandOver [] [.running false]).notResetting ∧
    (nextOf (step (atHandOver [] [.running false]))).map State.rasterValid = some true ∧
    (atHandOver [] [.running true]).HandOverInv ∧ (atHandOver [] [.running true]).rasterValid = true ∧
    (atHandOver [] [.running true]).notResetting ∧
    (nextOf (step (atHandOver [] [.running true]))).map State.rasterValid = some false := by
  refine ⟨?_, by decide, ⟨false, rfl⟩, by decide, ?_, by decide, ⟨true, rfl⟩, by decide⟩ <;>
    (constructor <;> intro _ <;> decide)

/-- OnlyTableTransitions in its other two cases: a header and a terminal state. -/
theorem witness_OnlyTableTransitions :
    State.reset.HandOverInv ∧ State.reset.notResetting ∧
    (nextOf (step State.reset)).isSome = true ∧
    { State.reset with phase := .done }.HandOverInv ∧
    (nextOf (step { State.reset with phase := .done })).isSome = true := by
  refine ⟨?_, ⟨true, rfl⟩, by decide, ?_, by decide⟩ <;> (constructor <;> intro h <;> cases h)

/-- HostSeesEveryPixel: the pixel the host reads (R60), and none outside the raster or without one. -/
theorem witness_HostSees :
    (atHandOver [0x53] []).rasterValid = true ∧ (atHandOver [0x53] []).hostReadPixel 0 0 = some 0x302010 ∧
    (atHandOver [0x53] []).hostReadPixel 1 0 = none ∧ State.reset.hostReadPixel 0 0 = none := by decide

/-- A payload of two tokens for a 2 by 1 image. -/
theorem witness_Payload :
    ∃ (is : List Instr) (s : State),
      s.phase = .expectPayload ∧ s.rasterValid = false ∧ s.row = 0 ∧ s.col = 0 ∧
      1 ≤ s.w.toNat ∧ 1 ≤ s.h.toNat ∧ s.w.toNat * s.h.toNat ≤ s.cfg.pixbankDepth ∧ s.neverResetting ∧
      s.legalMagic = true ∧
      (∀ i ∈ is, i.wellFormed = true ∧ i.context = .token) ∧
      (is.flatMap Instr.pixels).length = s.w.toNat * s.h.toNat ∧
      s.window s.cur (byteLengths is) = is.flatMap encode :=
  ⟨[.lit 0 [⟨1, 2, 3⟩], .run 0 (some ⟨4, 5, 6⟩)],
    atToken 2 1 0 0 [0x00, 1, 2, 3, 0x80, 4, 5, 6, 0xFF],
    by decide, by decide, by decide, by decide, by decide, by decide, by decide,
    fun x hx => (by cases hx), by decide, by decide, by decide, by decide⟩

/-- P5 (b): a header at 488, so that the payload follows it without padding. -/
theorem witness_Record :
    ∃ (is : List Instr) (s : State) (w t c : Word),
      s.headerEnabled = true ∧ s.rasterValid = false ∧ s.neverResetting ∧ s.legalMagic = true ∧
      1 ≤ w.toNat ∧ 1 ≤ t.toNat ∧ w.toNat * t.toNat ≤ s.cfg.pixbankDepth ∧
      (∀ i ∈ is, i.wellFormed = true ∧ i.context = .token) ∧
      (is.flatMap Instr.pixels).length = w.toNat * t.toNat ∧
      s.window s.cur 24 =
        encode (.hdr (magicBytes s.cfg) (some w) (some t) (some s.cfg.encSentinel) (some c)) ∧
      s.window (alignBlock (s.cur + 24)) (byteLengths is) = is.flatMap encode :=
  ⟨[.lit 0 [⟨0xDD, 0xEE, 0xFF⟩]],
    { State.reset with
      cur := 488, mem := setBytes 488 (hdrBytes 1 1 1 1 ++ [0x00, 0xDD, 0xEE, 0xFF]) [], len := 516 },
    1, 1, 1, by decide, by decide, fun x hx => (by cases hx), by decide, by decide, by decide, by decide, by decide,
    by decide, by decide, by decide⟩

end Sys2Proof.Tests
end

section
/-!
# The scope's two statements

Refusals of a step under the premise `MAGIC[0] ≠ 0x00` (spec/70_reset_and_hazards.md R196), and the bounds
of the registers on a stream shorter than 2^63 bytes (spec/00_scope.md R13).
-/

namespace Sys2Proof.Machine

/-! ## The premise on the signature -/

/-- The first byte of the signature is the low byte of the port (spec/42_host_interface.md R150). -/
theorem magicBytes_head? (c : Config) : (magicBytes c).head? = some (c.magic.extractLsb' 0 8) :=
  congrArg some (by apply BitVec.eq_of_toNat_eq; simp)

/-- The model's check of the premise looks at the byte the signature begins with. -/
theorem legalMagic_iff_head? (s : State) :
    s.legalMagic = true ↔ (magicBytes s.cfg).head? ≠ some 0x00 := by
  rw [magicBytes_head?, Ne, Option.some_inj]
  exact decide_eq_true_iff

/-! ## What a step is refused for -/

/-- An enabled literal is never refused. -/
theorem execLit_ne_refused {s : State} (he : s.tokenEnabled = true) (m : BitVec 7)
    (cs : List Colour) (r : Refusal) : execLit m cs s ≠ .refused r := by
  rcases execLit_cases m cs s he with ⟨_, h⟩ | ⟨_, _, t, h, _⟩ | ⟨_, _, v, _, h⟩ | ⟨_, h, _⟩ <;>
    simp [h]

/-- An enabled run is never refused. -/
theorem execRun_ne_refused {s : State} (he : s.tokenEnabled = true) (m : BitVec 7)
    (c : Option Colour) (r : Refusal) : execRun m c s ≠ .refused r := by
  rcases execRun_cases m c s he with ⟨_, h⟩ | ⟨_, _, _, t, h, _⟩ | ⟨_, _, v, _, h⟩ | ⟨_, h, _⟩ <;>
    simp [h]

/-- A TOKEN step is never refused. -/
theorem runItem_token_ne_refused {s : State} (he : s.tokenEnabled = true) (r : Refusal) :
    runItem .token s ≠ .refused r := by
  rcases runItem_token s with ⟨_, h⟩ | ⟨m, cs, h, _⟩ | ⟨m, c, h, _⟩ <;> rw [h]
  · simp
  · exact execLit_ne_refused he m cs r
  · exact execRun_ne_refused he m c r

/-- A HEADER step is refused for the bank's capacity only (spec/41_container_reader.md R124). -/
theorem runItem_header_refused {s : State} {r : Refusal} (he : s.headerEnabled = true)
    (h : runItem .header s = .refused r) : r = .rasterTooLarge := by
  obtain ⟨M, w, t, f, c, _, _, hr, _⟩ := runItem_header s
  rw [hr] at h
  rcases execHdr_cases M w t f c s he with ⟨_, _, h'⟩ | ⟨_, _, h'⟩ | ⟨_, v, _, _, _, _, _, _, h'⟩ |
    ⟨_, wv, tv, fv, cv, _, _, _, _, _, _, _, ⟨_, h'⟩ | ⟨_, h'⟩⟩ <;> (rw [h'] at h; cases h)
  rfl

/-- Of the steps the sequencer runs, only HEADER is ever refused, and for the capacity only. -/
theorem runStep_refused {s : State} {r : Refusal} (h : runStep s = .refused r) :
    r = .rasterTooLarge ∧ s.headerEnabled = true := by
  rcases runStep_cases s with ⟨he, h'⟩ | ⟨he, h'⟩ | ⟨_, h'⟩ | ⟨he, h'⟩ | ⟨_, _, _, _, h'⟩ <;>
    rw [h'] at h
  · exact ⟨runItem_header_refused he h, he⟩
  · exact absurd h (runItem_token_ne_refused he r)
  · cases h
  · obtain ⟨p, _, _, _, _, h5⟩ := release_spec s he
    rw [h5] at h
    cases h
  · cases h

/-- A refusal that `mapNext` passes on was there before. -/
theorem mapNext_eq_refused {g : State → State} {o : StepOutcome} {r : Refusal}
    (h : mapNext g o = .refused r) : o = .refused r := by
  cases o with
  | next u => cases h
  | fault q => cases h
  | refused q => cases h; rfl

/-- Outside RESET the refusal for the signature is exactly for the premise (R196). -/
theorem legalMagic_eq_false_iff_refused {s : State} (hr : s.notResetting) :
    s.legalMagic = false ↔ step s = .refused .magicStartsWithZero := by
  obtain ⟨ack, ha⟩ := hr
  refine ⟨step_illegalMagic ha, fun h => Bool.eq_false_of_not_eq_true fun hm => ?_⟩
  rw [step_running ha hm] at h
  have := (runStep_refused (mapNext_eq_refused h)).1
  cases this

/-- Settles O50: RESET comes before the check of the premise, and no step that passes the check is refused
for the signature. -/
theorem magicMustNotStartWithZero : Obligations.MagicMustNotStartWithZero :=
  ⟨legalMagic_iff_head?, fun _ hr => legalMagic_eq_false_iff_refused hr,
    fun _ _ hl => ⟨_, step_resetting hl⟩⟩

/-! ## Bounds of single values -/

/-- The aligned position is at or after the argument, by less than a block (R126). -/
theorem alignBlock_bounds (e : Nat) : e ≤ alignBlock e ∧ alignBlock e ≤ e + 511 := by
  simp only [alignBlock, Config.block]
  omega

/-- A payload's declared length fits 41 bits (spec/41_container_reader.md R125, R135). -/
theorem payloadLength_lt (b : Word) : payloadLength b < 2 ^ 41 := by
  simp only [payloadLength, Config.block]
  omega

/-- The guard's count fits 64 bits: both sizes of an image fit 32 (spec/40_rle24_decoder.md R94). -/
theorem remaining_lt (s : State) : s.remaining < 2 ^ 64 := by
  have hle : s.remaining ≤ s.h.toNat * s.w.toNat :=
    (Nat.sub_le _ _).trans (Nat.mul_le_mul_right _ (Nat.sub_le _ _))
  calc s.remaining ≤ s.h.toNat * s.w.toNat := hle
    _ < 2 ^ 32 * 2 ^ 32 := Nat.mul_lt_mul'' s.h.isLt s.w.isLt
    _ = 2 ^ 64 := (Nat.pow_add 2 32 32).symm

/-- At most 8 bytes are a number of 64 bits (spec/20_memory.md R55). -/
theorem numLE_lt_two_pow_64 {M : List Byte} (h : M.length ≤ 8) : numLE M < 2 ^ 64 :=
  (numLE_lt M).trans_le (Nat.pow_le_pow_right (by omega : 0 < 256) h)

/-! ## The length bound along a step -/

/-- The bound speaks of the stream's length and the host's samples only. -/
theorem State.LengthBound.congr {s t : State} (h : s.LengthBound) (hl : t.len = s.len)
    (hh : t.host = s.host) : t.LengthBound :=
  ⟨hl ▸ h.now, hh ▸ h.loads⟩

/-- The host's next sample brings no stream that was not bounded before. -/
theorem State.LengthBound.tick {s : State} (h : s.LengthBound) : s.tick.LengthBound :=
  ⟨h.now, fun u hu => h.loads u (List.mem_of_mem_tail hu)⟩

/-- A sample of the host that is not the default one stands in its list. -/
theorem hostNow_resetting_mem {s : State} {load : Option HostSetup}
    (h : s.hostNow = .resetting load) : .resetting load ∈ s.host := by
  unfold State.hostNow at h
  cases hs : s.host with
  | nil => rw [hs] at h; cases h
  | cons x xs => rw [hs] at h; exact h ▸ List.mem_cons_self

/-- A load under RESET is one of the streams the bound speaks of. -/
theorem State.LengthBound.holdReset {s : State} {load : Option HostSetup} (h : s.LengthBound)
    (hl : s.hostNow = .resetting load) : (s.holdReset load).LengthBound := by
  cases load with
  | none => exact ⟨h.now, h.loads⟩
  | some u => exact ⟨h.loads u (hostNow_resetting_mem hl), h.loads⟩

/-! ## The register bounds along a step -/

/-- A fault may be entered from the state the step began in. -/
theorem SameOutsideOpen.refl (s : State) : SameOutsideOpen s s := rfl

namespace State.PositionInv

/-- The bounds do not depend on which sample of the host comes next. -/
theorem tick {s : State} (h : s.PositionInv) : s.tick.PositionInv :=
  { h with lengths := h.lengths.tick }

/-- RESET, with any load (spec/70_reset_and_hazards.md R190): only the stream and the cursor are not 0. -/
theorem holdReset {s : State} {load : Option HostSetup} (h : s.PositionInv)
    (hl : s.hostNow = .resetting load) : (s.holdReset load).PositionInv where
  lengths := h.lengths.holdReset hl
  row := Nat.two_pow_pos 32
  col := Nat.two_pow_pos 32
  pstart := Nat.two_pow_pos 64
  pend := Nat.two_pow_pos 64
  cur := (s.holdReset load).cfg.reservedOffset.isLt
  errPos := Nat.two_pow_pos 64
  errExpected := Nat.two_pow_pos 64
  errFound := Nat.two_pow_pos 64
  headers := Nat.zero_le _
  atHeader _ := Nat.zero_le _
  inImage hp := by cases hp
  decoding hp := by cases hp

/-- A terminal state: the free values have their registers' widths, so only the error context is asked
for (spec/60_exceptions.md R167, R171). -/
theorem terminate {s v : State} (h : s.PositionInv) (hv : SameOutsideOpen s v) {p : Phase}
    (hp : p.terminal = true) (c : Cause) {pos exp found : Nat} (hpos : pos < 2 ^ 64)
    (hexp : exp < 2 ^ 64) (hfound : found < 2 ^ 64) :
    (v.terminate p c pos exp found).PositionInv := by
  unfold SameOutsideOpen at hv
  rw [hv]
  exact {
    lengths := h.lengths.congr rfl rfl
    row := BitVec.isLt _
    col := BitVec.isLt _
    pstart := BitVec.isLt _
    pend := BitVec.isLt _
    cur := BitVec.isLt _
    errPos := hpos
    errExpected := hexp
    errFound := hfound
    headers := h.headers
    atHeader := fun (e : p = _) => by subst e; cases hp
    inImage := fun (e : p = _) => by subst e; cases hp
    decoding := fun (e : p = _) => by subst e; cases hp }

/-- While an image is decoded the cursor is at most one alignment beyond the stream. -/
theorem cur_le_of_decoding {s : State} (h : s.PositionInv) (hp : s.phase = .expectPayload)
    (hr : s.rasterValid = false) : s.cur ≤ s.len + 511 := by
  have := (h.inImage hp).1
  have := (h.decoding hp hr).2.2
  omega

/-- BOUNDS after a whole header: its 24 bytes come on top of the headers before it
(spec/41_container_reader.md R127, R135). -/
theorem header {s : State} (h : s.PositionInv) (hp : s.phase = .expectHeader)
    (hlen : s.cur + 24 ≤ s.len) (w t f c : Word) : (bounds s.cur (s.latch w t f c)).PositionInv := by
  have hseq := h.atHeader hp
  have hnow := h.lengths.now
  have hpay := payloadLength_lt c
  obtain ⟨hlo, hhi⟩ := alignBlock_bounds (s.cur + 24)
  have hstart : alignBlock (s.cur + 24) < 2 ^ 64 := by omega
  exact {
    lengths := h.lengths.congr rfl rfl
    row := Nat.two_pow_pos 32
    col := Nat.two_pow_pos 32
    pstart := hstart
    pend := show alignBlock (s.cur + 24) + payloadLength c < 2 ^ 64 by omega
    cur := hstart
    errPos := h.errPos
    errExpected := h.errExpected
    errFound := h.errFound
    headers := h.headers
    atHeader := nofun
    inImage := fun _ => show alignBlock (s.cur + 24) ≤ s.len + 511 ∧
      24 * s.seq ≤ alignBlock (s.cur + 24) by omega
    decoding := fun _ _ => show 24 * (s.seq + 1) ≤ s.len ∧ 24 * (s.seq + 1) ≤ alignBlock (s.cur + 24) ∧
      alignBlock (s.cur + 24) ≤ max (alignBlock (s.cur + 24)) s.len by omega }

/-- A token that fits leaves the scan position inside the image and the cursor inside the stream
(spec/40_rle24_decoder.md R94, R99). -/
theorem token {s t : State} {ps : List Pixel} {k : Nat} (h : s.PositionInv) (hscan : s.ScanInv)
    (he : s.tokenEnabled = true) (hps : ps.length ≤ s.remaining) (hk : s.cur + k ≤ s.len)
    (hw : Written s t ps k) : t.PositionInv := by
  obtain ⟨hp, hr, hrow⟩ := tokenEnabled_iff.mp he
  have hcol := hscan.column hp
  have hfit : linearIndex s.w s.row s.col + ps.length ≤ s.w.toNat * s.h.toNat := by
    have := linearIndex_add_remaining hrow hcol
    omega
  have htrow : t.row < 2 ^ 32 := (hw.rowBound hcol hfit).1.trans_lt s.h.isLt
  have htcol : t.col < 2 ^ 32 := (hw.column hcol).trans s.w.isLt
  have hnow := h.lengths.now
  obtain ⟨hd1, hd2, _⟩ := h.decoding hp hr
  rw [hw.frame]
  exact { h with
    lengths := h.lengths.congr rfl rfl
    row := htrow
    col := htcol
    cur := show s.cur + k < 2 ^ 64 by omega
    atHeader := fun e => by cases hp.symm.trans e
    decoding := fun _ _ => ⟨hd1, hd2, show s.cur + k ≤ max s.pstart s.len by omega⟩ }

/-- FINISH: the image that is counted now has had its header (spec/10_state.md R27, spec/41_container_reader.md R136). -/
theorem finish {s : State} (h : s.PositionInv) (he : s.finishEnabled = true) :
    s.finish.PositionInv := by
  obtain ⟨hp, hr, _⟩ := finishEnabled_iff.mp he
  obtain ⟨hd1, hd2, _⟩ := h.decoding hp hr
  exact { h with
    lengths := h.lengths.congr rfl rfl
    cur := h.pend
    headers := hd1
    atHeader := fun e => by cases hp.symm.trans e
    inImage := fun _ => ⟨(h.inImage hp).1, hd2⟩
    decoding := nofun }

/-- RELEASE: the skip begins at the declared end, behind the headers counted so far
(spec/41_container_reader.md R130, R131). -/
theorem release {s : State} {p : Nat} (h : s.PositionInv) (hi : s.Inv) (he : s.releaseEnabled = true)
    (hp : s.cur ≤ p) (hp' : p ≤ max s.cur s.len) :
    { s with cur := p, rasterValid := false, phase := .expectHeader }.PositionInv := by
  obtain ⟨hphase, hr, _⟩ := releaseEnabled_iff.mp he
  have hcur := h.cur
  have hnow := h.lengths.now
  have hseek := hi.handOver.seek hr
  have hend := hi.boundary.window hphase
  have hstart := (h.inImage hphase).2
  exact { h with
    lengths := h.lengths.congr rfl rfl
    cur := show p < 2 ^ 64 by omega
    atHeader := fun _ => show 24 * s.seq ≤ p by omega
    inImage := nofun
    decoding := nofun }

/-- Every move keeps the register bounds. -/
theorem moves {s u : State} (h : s.PositionInv) (hi : s.Inv) (hm : Moves s u) : u.PositionInv := by
  have hnow := h.lengths.now
  cases hm with
  | unsupported M _ _ hM =>
    exact h.terminate (.refl s) rfl _ h.cur s.cfg.magic.isLt (numLE_lt_two_pow_64 hM)
  | done _ _ =>
    exact h.terminate (.refl s) (p := .done) rfl s.cause h.errPos h.errExpected h.errFound
  | headerFault v c pos exp found _ hlen hv hc =>
    have hpos := hc.position
    have hfound := hc.found
    exact h.terminate hv rfl c (by omega) hc.expected (by omega)
  | header w t f c he hlen _ _ _ => exact h.header (headerEnabled_iff.mp he) hlen w t f c
  | tokenFault v c pos exp found he hv _ hpos hexp hfound =>
    obtain ⟨hp, hr, _⟩ := tokenEnabled_iff.mp he
    have hcur := h.cur_le_of_decoding hp hr
    have hrem := remaining_lt s
    exact h.terminate hv rfl c (by omega) (by omega) (by omega)
  | token _ ps k he hps hk hw => exact h.token hi.scan he hps.2 hk hw
  | finish he => exact h.finish he
  | release p he hp hp' => exact h.release hi he hp hp'
  | idle => exact h

end State.PositionInv

/-- Settles O46: by the kinds of step, from the bounds on the header positions and the cursor that
`PositionInv` carries beside the registers' widths. -/
theorem stepKeepsRegisterWidths : Obligations.StepKeepsRegisterWidths := by
  intro s t hi h hstep
  rcases step_cases hstep with ⟨load, hl, rfl⟩ | ⟨_, _, u, hm, rfl⟩
  · exact (h.holdReset hl).tick
  · exact (h.moves hi hm).tick

end Sys2Proof.Machine
end

section
/-!
# The machine's invariant along a step

R39, R30 and R31 (spec/10_state.md), part by part: a load under RESET, the status registers, the image that is
decoded, and OUT.
-/

namespace Sys2Proof.Machine

/-! ## The stream under RESET -/

/-- A loaded stream reads as the container, byte for byte (spec/70_reset_and_hazards.md R192). -/
theorem byteAt_holdReset_some (s : State) (u : HostSetup) (a : Nat) :
    (s.holdReset (some u)).byteAt a = u.container[a]? := by
  rw [byteAt_eq, State.holdReset_len, State.holdReset_mem, State.loadSetup_len, State.loadSetup_mem,
    memByte_setBytes]
  by_cases ha : a < u.container.length
  · rw [if_pos ha, if_pos (by omega), Nat.sub_zero, List.getD_eq_getElem _ _ ha,
      List.getElem?_eq_getElem ha]
  · rw [if_neg ha, List.getElem?_eq_none (by omega)]

/-- A loaded stream is in canonical form and lists nothing beyond the container
(spec/20_memory.md R51). -/
theorem streamInv_holdReset_some (s : State) (u : HostSetup) :
    (s.holdReset (some u)).StreamInv where
  canonical := memory_wf_setBytes 0 u.container memory_wf_nil
  inside e he := by
    rcases mem_setBytes (m := []) he with ⟨_, h⟩ | h
    · exact h.trans_eq (Nat.zero_add _)
    · cases h

/-! ## The invariant's parts that an update leaves alone -/

/-- OUT's invariant speaks of SEQ and OUT only. -/
theorem State.OutInv.congr {s t : State} (h : s.OutInv) (hs : t.seq = s.seq) (ho : t.out = s.out) :
    t.OutInv :=
  ⟨by rw [hs, ho, h.count], ho ▸ h.index, ho ▸ h.whole⟩

/-- The stream's invariant speaks of the stream only. -/
theorem State.StreamInv.congr {s t : State} (h : s.StreamInv) (hm : t.mem = s.mem)
    (hl : t.len = s.len) : t.StreamInv :=
  ⟨hm ▸ h.canonical, by rw [hm, hl]; exact h.inside⟩

/-- Without a raster in the host's hands nothing is asked of the hand-over. -/
theorem State.HandOverInv.of_noRaster {s : State} (h : s.rasterValid = false) : s.HandOverInv := by
  constructor <;> (rw [h]; nofun)

/-- A raster is in the host's hands in ExpectPayload only (spec/10_state.md R29). -/
theorem State.HandOverInv.noRaster {s : State} (h : s.HandOverInv) (hp : s.phase ≠ .expectPayload) :
    s.rasterValid = false :=
  Bool.eq_false_of_not_eq_true fun hr => hp (h.payload hr)

/-- Between images only the status registers, OUT, the stream and the bank's form are asked for. -/
theorem State.Inv.of_noImage {s : State} (hp : s.phase ≠ .expectPayload) (hr : s.rasterValid = false)
    (hb : s.bank.wf = true) (ho : s.OutInv) (hst : s.StatusInv) (hm : s.StreamInv) : s.Inv where
  scan := by constructor <;> exact fun e => absurd e hp
  bank := ⟨hb, fun e => absurd e hp⟩
  boundary := by constructor <;> exact fun e => absurd e hp
  handOver := .of_noRaster hr
  out := ho
  status := hst
  stream := hm

/-! ## The status registers -/

/-- A fault's cause and STATE agree (spec/10_state.md R30, spec/60_exceptions.md R160). -/
theorem State.StatusInv.of_formatError {s : State} (hp : s.phase = .formatError)
    (hc : s.cause ∉ [.none, .unsupportedFormat, .invalidArgument]) : s.StatusInv where
  none := iff_of_false (fun e => hc (by simp [e])) fun e => e.2 hp
  unsupported := iff_of_false (fun e => hc (by simp [e])) (by rw [hp]; nofun)
  notHostOnly e := hc (by simp [e])
  noContext e := absurd (by simp [e]) hc
  noImage e := by rw [hp] at e; cases e
  someImage e := by rw [hp] at e; cases e

/-- The states that are no end of a run (spec/10_state.md R28). -/
theorem terminal_eq_false_iff {p : Phase} :
    p.terminal = false ↔ p ≠ .done ∧ p ≠ .unsupportedFile ∧ p ≠ .formatError := by
  cases p <;> decide

/-- Before the end of a run no fault is recorded (spec/10_state.md R30, R31). -/
theorem State.StatusInv.cause_none {s : State} (h : s.StatusInv) (hs : s.phase.terminal = false) :
    s.cause = .none :=
  h.none.mpr (terminal_eq_false_iff.mp hs).2

/-- Between two states that are no end of a run the status registers stay. -/
theorem State.StatusInv.keep {s t : State} (h : s.StatusInv) (hs : s.phase.terminal = false)
    (ht : t.phase.terminal = false) (hc : t.cause = s.cause) (hpos : t.errPos = s.errPos)
    (hexp : t.errExpected = s.errExpected) (hfound : t.errFound = s.errFound) : t.StatusInv := by
  obtain ⟨hdone, hunsup, hfault⟩ := terminal_eq_false_iff.mp ht
  have hnone : s.cause = .none := h.cause_none hs
  exact {
    none := iff_of_true (hc.trans hnone) ⟨hunsup, hfault⟩
    unsupported := iff_of_false (by rw [hc, hnone]; nofun) hunsup
    notHostOnly := by rw [hc, hnone]; nofun
    noContext := fun _ => by rw [hpos, hexp, hfound]; exact h.noContext hnone
    noImage := fun e => absurd e hunsup
    someImage := fun e => absurd e hdone }

/-- UnsupportedFile is entered before any image (spec/60_exceptions.md R161). -/
theorem State.StatusInv.enterUnsupported {s : State} (h0 : s.seq = 0) (pos exp found : Nat) :
    (s.enterUnsupported pos exp found).StatusInv where
  none := iff_of_false nofun fun e => e.1 rfl
  unsupported := iff_of_true rfl rfl
  notHostOnly := nofun
  noContext := nofun
  noImage _ := h0
  someImage := nofun

/-- Done is entered after an image, and records no fault (spec/60_exceptions.md R172). -/
theorem State.StatusInv.enterDone {s : State} (h : s.StatusInv) (hs : s.phase.terminal = false)
    (h0 : s.seq ≠ 0) : s.enterDone.StatusInv where
  none := iff_of_true (h.cause_none hs) ⟨nofun, nofun⟩
  unsupported := iff_of_false (by rw [State.enterDone_cause, h.cause_none hs]; nofun) nofun
  notHostOnly := h.notHostOnly
  noContext := h.noContext
  noImage := nofun
  someImage _ := Nat.pos_of_ne_zero h0

/-! ## The invariant's parts along the steps that change them -/

/-- BOUNDS after a valid header: an empty image of legal size (spec/41_container_reader.md R124, R127). -/
theorem State.ScanInv.header {s : State} {w t f c : Word} (hw : w ≠ 0) (ht : t ≠ 0)
    (hd : w.toNat * t.toNat ≤ s.cfg.pixbankDepth) : (bounds s.cur (s.latch w t f c)).ScanInv := by
  have pos : ∀ v : Word, v ≠ 0 → 0 < v.toNat := fun v hv =>
    Nat.pos_of_ne_zero fun e => hv (BitVec.eq_of_toNat_eq e)
  exact {
    width := fun _ => pos w hw
    height := fun _ => pos t ht
    column := fun _ => pos w hw
    row := fun _ => Nat.zero_le _
    complete := fun _ _ => rfl
    capacity := fun _ => hd }

/-- BOUNDS leaves no entry written, and the scan position is at the first (spec/10_state.md R33). -/
theorem bankInv_bounds (h : Nat) (s : State) : (bounds h s).BankInv :=
  ⟨bank_wf_nil, fun _ i => by simp [linearIndex]⟩

/-- BOUNDS sets an aligned start and the declared end (spec/41_container_reader.md R125, R126, R127). -/
theorem boundaryInv_bounds (h : Nat) (s : State) : (bounds h s).BoundaryInv :=
  ⟨fun _ => Nat.mul_mod_left _ _, fun _ => rfl⟩

/-- A token that fits leaves the scan position inside the image (spec/40_rle24_decoder.md R94, R99). -/
theorem State.ScanInv.token {s t : State} {ps : List Pixel} {k : Nat} (h : s.ScanInv)
    (he : s.tokenEnabled = true) (hps : ps.length ≤ s.remaining) (hw : Written s t ps k) :
    t.ScanInv := by
  obtain ⟨hp, _, hrow⟩ := tokenEnabled_iff.mp he
  have hcol := h.column hp
  have hfit : linearIndex s.w s.row s.col + ps.length ≤ s.w.toNat * s.h.toNat := by
    have := linearIndex_add_remaining hrow hcol
    omega
  obtain ⟨htrow, htcomplete⟩ := hw.rowBound hcol hfit
  have htcol := hw.column hcol
  rw [hw.frame]
  exact { h with
    column := fun _ => htcol
    row := fun _ => htrow
    complete := fun _ => htcomplete }

/-- A token writes the entries from the old scan position up to the new one (spec/10_state.md R33). -/
theorem State.BankInv.token {s t : State} {ps : List Pixel} {k : Nat} (h : s.BankInv)
    (hp : s.phase = .expectPayload) (hw : Written s t ps k) : t.BankInv := by
  refine ⟨hw.bankWf h.canonical, fun _ i => ?_⟩
  have hold := h.written hp i
  have hwidth : t.w = s.w := by rw [hw.frame]
  rw [hwidth, hw.index]
  rcases Nat.lt_or_ge i (linearIndex s.w s.row s.col) with hi | hi
  · rw [hw.other i (.inl hi), hold]
    omega
  rcases Nat.lt_or_ge i (linearIndex s.w s.row s.col + ps.length) with hn | hn
  · obtain ⟨j, rfl⟩ := Nat.exists_eq_add_of_le hi
    have hj : j < ps.length := by omega
    rw [hw.pixel j hj, List.getElem?_eq_getElem hj]
    exact iff_of_true rfl hn
  · rw [hw.other i (.inr hn), hold]
    omega

/-- Of a complete image every bank entry that holds a value is in use, so FINISH yields the bank
(spec/42_host_interface.md R152). -/
theorem raster_eq_bank {s : State} (hs : s.ScanInv) (hb : s.BankInv) (he : s.finishEnabled = true) :
    s.raster = ⟨s.seq + 1, s.w, s.h, s.bank⟩ := by
  obtain ⟨hp, _, hrow⟩ := finishEnabled_iff.mp he
  have hcol := hs.complete hp hrow
  have inUse : ∀ e ∈ s.bank, decide (e.1 < s.w.toNat * s.h.toNat) = true := by
    intro e hmem
    have hlt := (hb.written hp e.1).mp (lookupCell_isSome_of_mem hmem)
    rw [hrow, hcol, linearIndex, Nat.add_zero, Nat.mul_comm] at hlt
    exact decide_eq_true hlt
  unfold State.raster
  rw [List.filter_eq_self.mpr inUse]

/-- A complete image has a value for each of its pixels (spec/10_state.md R33). -/
theorem whole_raster {s : State} (hs : s.ScanInv) (hb : s.BankInv) (he : s.finishEnabled = true) :
    s.raster.whole := by
  obtain ⟨hp, _, hrow⟩ := finishEnabled_iff.mp he
  rw [raster_eq_bank hs hb he]
  intro r c (hr : r < s.h.toNat) (hc : c < s.w.toNat)
  have hbelow : linearIndex s.w r c < linearIndex s.w s.row s.col :=
    calc r * s.w.toNat + c < (r + 1) * s.w.toNat := by rw [Nat.succ_mul]; omega
      _ ≤ s.row * s.w.toNat := Nat.mul_le_mul_right _ (by omega)
      _ ≤ linearIndex s.w s.row s.col := Nat.le_add_right _ _
  rw [yieldedPixel, if_pos ⟨hr, hc⟩]
  exact (hb.written hp _).mpr hbelow

/-- FINISH appends one whole entry, numbered by the new SEQ (spec/10_state.md R27, R37). -/
theorem State.OutInv.finish {s : State} (h : s.OutInv) (hy : s.raster.whole) : s.finish.OutInv where
  count := by
    rw [State.finish_seq, State.finish_out, List.length_append, h.count, List.length_singleton]
  index i y hi := by
    rw [State.finish_out, List.getElem?_append] at hi
    split at hi
    · exact h.index i y hi
    · next hlen =>
      obtain ⟨hzero, rfl⟩ : i - s.out.length = 0 ∧ s.raster = y := by
        cases hk : i - s.out.length with
        | zero => rw [hk] at hi; exact ⟨rfl, Option.some.inj hi⟩
        | succ k => rw [hk] at hi; cases hi
      show s.seq + 1 = i + 1
      rw [h.count]
      omega
  whole y hmem := by
    rcases List.mem_append.mp hmem with hold | hnew
    · exact h.whole y hold
    · rwa [List.mem_singleton.mp hnew]

/-! ## The invariant along a step -/

namespace State.Inv

/-- The invariant does not depend on which sample of the host comes next. -/
theorem tick {s : State} (h : s.Inv) : s.tick.Inv where
  scan := { h.scan with }
  bank := { h.bank with }
  boundary := { h.boundary with }
  handOver := { h.handOver with }
  out := { h.out with }
  status := { h.status with }
  stream := { h.stream with }

/-- RESET, where the stream it leaves is in canonical form (spec/70_reset_and_hazards.md R190). -/
theorem holdReset {s : State} {load : Option HostSetup} (hm : (s.holdReset load).StreamInv) :
    (s.holdReset load).Inv :=
  of_noImage nofun rfl rfl ⟨rfl, nofun, nofun⟩
    ⟨iff_of_true rfl ⟨nofun, nofun⟩, iff_of_false nofun nofun, nofun, fun _ => ⟨rfl, rfl, rfl⟩,
      nofun, nofun⟩ hm

/-- A terminal state, with status registers that agree with STATE (spec/60_exceptions.md R167, R171). -/
theorem terminate {s v : State} (h : s.Inv) (hr : s.rasterValid = false) (hv : SameOutsideOpen s v)
    {p : Phase} (hp : p.terminal = true) (c : Cause) (pos exp found : Nat)
    (hst : (v.terminate p c pos exp found).StatusInv) : (v.terminate p c pos exp found).Inv := by
  unfold SameOutsideOpen at hv
  rw [hv] at hst ⊢
  refine of_noImage (fun (e : p = _) => ?_) hr rfl (h.out.congr rfl rfl) hst (h.stream.congr rfl rfl)
  subst e
  cases hp

/-- A step's fault (spec/60_exceptions.md R160, R167): its cause is none of the other three. -/
theorem fault {s v : State} (h : s.Inv) (hr : s.rasterValid = false) (hv : SameOutsideOpen s v)
    {c : Cause} (hc : c ∉ [.none, .unsupportedFormat, .invalidArgument]) (pos exp found : Nat) :
    (v.faultEntry c pos exp found).Inv :=
  h.terminate hr hv rfl c pos exp found (.of_formatError rfl hc)

/-- BOUNDS after a valid header (spec/41_container_reader.md R124, R127). -/
theorem header {s : State} (h : s.Inv) (hp : s.phase = .expectHeader) {w t : Word} (hw : w ≠ 0)
    (ht : t ≠ 0) (hd : w.toNat * t.toNat ≤ s.cfg.pixbankDepth) (f c : Word) :
    (bounds s.cur (s.latch w t f c)).Inv where
  scan := .header hw ht hd
  bank := bankInv_bounds _ _
  boundary := boundaryInv_bounds _ _
  handOver := .of_noRaster (h.handOver.noRaster (by rw [hp]; nofun))
  out := h.out.congr rfl rfl
  status := h.status.keep (by rw [hp]; rfl) rfl rfl rfl rfl rfl
  stream := h.stream.congr rfl rfl

/-- A token that fits (spec/40_rle24_decoder.md R94, R102). -/
theorem token {s t : State} {ps : List Pixel} {k : Nat} (h : s.Inv) (he : s.tokenEnabled = true)
    (hps : ps.length ≤ s.remaining) (hw : Written s t ps k) : t.Inv := by
  obtain ⟨hp, hr, _⟩ := tokenEnabled_iff.mp he
  have hscan := h.scan.token he hps hw
  have hbank := h.bank.token hp hw
  rw [hw.frame] at hscan hbank ⊢
  exact {
    scan := hscan
    bank := hbank
    boundary := { h.boundary with }
    handOver := .of_noRaster hr
    out := h.out.congr rfl rfl
    status := { h.status with }
    stream := h.stream.congr rfl rfl }

/-- FINISH: the host gets the bank as the last entry of OUT (spec/41_container_reader.md R128,
spec/10_state.md R39). -/
theorem finish {s : State} (h : s.Inv) (he : s.finishEnabled = true) : s.finish.Inv := by
  obtain ⟨hp, _, hrow⟩ := finishEnabled_iff.mp he
  have hlast : s.finish.out.getLast? = some ⟨s.seq + 1, s.w, s.h, s.bank⟩ := by
    rw [State.finish_out, List.getLast?_concat, raster_eq_bank h.scan h.bank he]
  exact {
    scan := { h.scan with }
    bank := { h.bank with }
    boundary := { h.boundary with }
    handOver := ⟨fun _ => hp, fun _ => ⟨hrow, h.scan.complete hp hrow⟩, fun _ => rfl, fun _ => hlast⟩
    out := h.out.finish (whole_raster h.scan h.bank he)
    status := h.status.keep (by rw [hp]; rfl) (by rw [State.finish_phase, hp]; rfl) rfl rfl rfl rfl
    stream := h.stream.congr rfl rfl }

/-- RELEASE: no image until the next header (spec/41_container_reader.md R130). -/
theorem release {s : State} (h : s.Inv) (hp : s.phase = .expectPayload) (p : Nat) :
    { s with cur := p, rasterValid := false, phase := .expectHeader }.Inv :=
  of_noImage nofun rfl h.bank.canonical (h.out.congr rfl rfl)
    (h.status.keep (by rw [hp]; rfl) rfl rfl rfl rfl rfl) (h.stream.congr rfl rfl)

/-- Every move keeps the invariant. -/
theorem moves {s u : State} (h : s.Inv) (hm : Moves s u) : u.Inv := by
  have hnr : s.headerEnabled = true → s.rasterValid = false := fun he =>
    h.handOver.noRaster (by rw [headerEnabled_iff.mp he]; nofun)
  cases hm with
  | unsupported M he h0 _ => exact h.terminate (hnr he) (.refl s) rfl _ _ _ _ (.enterUnsupported h0 _ _ _)
  | done he h0 =>
    have hst := h.status.enterDone (by rw [headerEnabled_iff.mp he]; rfl) h0
    exact h.terminate (hnr he) (.refl s) rfl s.cause s.errPos s.errExpected s.errFound hst
  | headerFault v c pos exp found he _ hv hc =>
    rcases hc.cause with rfl | rfl | rfl <;> exact h.fault (hnr he) hv (by decide) _ _ _
  | header w t f c he _ hw ht hd => exact h.header (headerEnabled_iff.mp he) hw ht hd f c
  | tokenFault v c pos exp found he hv hc =>
    have hr := (tokenEnabled_iff.mp he).2.1
    rcases hc with rfl | rfl <;> exact h.fault hr hv (by decide) _ _ _
  | token _ ps k he hps _ hw => exact h.token he hps.2 hw
  | finish he => exact h.finish he
  | release p he => exact h.release (releaseEnabled_iff.mp he).1 p
  | idle => exact h

end State.Inv

/-- Settles O45: RESET meets the invariant from the stream alone, and every move keeps it. -/
theorem stepKeepsInvariant : Obligations.StepKeepsInvariant := by
  intro s t h hstep
  rcases step_cases hstep with ⟨load, _, rfl⟩ | ⟨_, _, u, hm, rfl⟩
  · cases load with
    | none => exact (State.Inv.holdReset (load := none) (h.stream.congr rfl rfl)).tick
    | some c => exact (State.Inv.holdReset (streamInv_holdReset_some s c)).tick
  · exact (h.moves hm).tick

/-- With nothing loaded every register is 0 (spec/10_state.md R38). -/
theorem positionInv_reset : State.reset.PositionInv := by
  have hlen : State.reset.LengthBound := ⟨Nat.two_pow_pos 63, nofun⟩
  refine ⟨hlen, ?_, ?_, ?_, ?_, ?_, ?_, ?_, ?_, ?_, ?_, ?_, ?_⟩ <;> decide

/-- Settles O44: the state after reset is a RESET that loads nothing, on the empty stream. -/
theorem resetMeetsInvariant : Obligations.ResetMeetsInvariant :=
  ⟨State.Inv.holdReset (s := State.reset) (load := none) ⟨memory_wf_nil, nofun⟩, positionInv_reset,
    fun s u => .holdReset (streamInv_holdReset_some s u)⟩

end Sys2Proof.Machine
end

section
/-!
# What the steps and the items change and leave

The reset table (spec/10_state.md R38, spec/70_reset_and_hazards.md R190), the waiting steps (spec/10_state.md
R28, R29), the item a step runs (spec/10_state.md R20), the frames of the items (spec/10_state.md R35), and the
raster in the host's hands (spec/20_memory.md R61, R67).
-/

namespace Sys2Proof.Machine

/-! ## RESET and the waiting steps -/

/-- Settles O1: the registers are those of `holdReset`; the stream is kept, or is the load's, byte for
byte. -/
theorem resetEntersTableState : Obligations.ResetEntersTableState := by
  intro s load hl
  refine ⟨(s.holdReset load).tick, step_resetting hl, rfl, rfl, rfl, rfl, rfl, rfl, rfl, rfl, rfl,
    ?_, ?_, ?_⟩
  · rw [State.tick_host, State.holdReset_host]
  · rintro rfl
    exact ⟨rfl, fun _ => rfl⟩
  · rintro u rfl
    exact ⟨rfl, byteAt_holdReset_some s u⟩

/-- No step is enabled in a terminal state (spec/10_state.md R28). -/
theorem runStep_terminal {s : State} (h : s.phase.terminal = true) : runStep s = .next s := by
  have hh : s.phase ≠ .expectHeader := by intro e; rw [e] at h; cases h
  have hp : s.phase ≠ .expectPayload := by intro e; rw [e] at h; cases h
  apply runStep_idle <;> apply Bool.eq_false_of_not_eq_true
  · rwa [headerEnabled_iff]
  · exact fun e => hp (tokenEnabled_iff.mp e).1
  · exact fun e => hp (finishEnabled_iff.mp e).1
  · exact fun e => hp (releaseEnabled_iff.mp e).1

/-- Settles O3: the sequencer finds no step enabled. -/
theorem terminalStatesStay : Obligations.TerminalStatesStay := by
  rintro s hp ⟨ack, ha⟩ hm
  rw [step_running ha hm, runStep_terminal hp, mapNext_next]

/-- No step is enabled while the host holds a raster and does not acknowledge (spec/10_state.md R29). -/
theorem runStep_noAcknowledge {s : State} (hp : s.phase = .expectPayload) (hr : s.rasterValid = true)
    (ha : s.hostNow = .running false) : runStep s = .next s := by
  apply runStep_idle <;> apply Bool.eq_false_of_not_eq_true
  · rw [headerEnabled_iff, hp]; nofun
  · rw [tokenEnabled_iff, hr]; nofun
  · rw [finishEnabled_iff, hr]; nofun
  · rw [releaseEnabled_iff, ha]; nofun

/-- Settles O4: HEADER needs another state, TOKEN and FINISH no raster, RELEASE an acknowledge. -/
theorem blockWaitsForAcknowledge : Obligations.BlockWaitsForAcknowledge := by
  intro s hp hr ha hm
  rw [step_running ha hm, runStep_noAcknowledge hp hr ha, mapNext_next]

/-! ## The item a step runs -/

/-- An item that is there, whole or cut short, is run (spec/10_state.md R20). -/
theorem runItem_of_decode {s : State} {c : Context} {i : Instr} {rest : List Byte}
    (h : decode c (s.fetch c) = .ok (i, rest) ∨ decode c (s.fetch c) = .error (.cutShort i rest)) :
    runItem c s = exec i s := by
  unfold runItem
  rcases h with h | h <;> rw [h]

/-- The sequencer parses an item of the context the state selects (spec/30_encoding.md R79). -/
theorem runStep_of_parses {s : State} {c : Context} (h : s.parses c) : runStep s = runItem c s := by
  rcases h with ⟨rfl, he⟩ | ⟨rfl, he⟩
  · exact runStep_header he
  · exact runStep_token he

/-- Settles O12: the sequencer runs the item of the context the state parses. -/
theorem stepRunsDecodedItem : Obligations.StepRunsDecodedItem := by
  rintro s c i rest hp ⟨ack, ha⟩ hm hdec
  rw [step_running ha hm, runStep_of_parses hp, runItem_of_decode hdec]

/-- Settles O2: RESET leaves the state that parses a header at RESERVED_OFFSET, and there an item is always
there, whole or cut short. -/
theorem firstStepIsHeaderAtReservedOffset : Obligations.FirstStepIsHeaderAtReservedOffset := by
  refine ⟨⟨rfl, rfl, rfl, rfl, rfl, rfl, rfl, rfl, rfl⟩, fun s t load hl hstep hrun hm => ?_⟩
  rw [step_resetting hl] at hstep
  cases hstep
  obtain ⟨M, w, t, f, c, rest, hdec, _⟩ := runItem_header (s.holdReset load).tick
  exact ⟨rfl, .hdr M w t f c, rest, hdec,
    stepRunsDecodedItem _ .header _ rest (.inl ⟨rfl, rfl⟩) hrun hm hdec⟩

/-! ## The frames of the items -/

/-- The step ended in some fault (spec/60_exceptions.md R167). -/
def FaultsTo (s t : State) : Prop :=
  ∃ c pos exp found, Faulted s t c pos exp found

/-- A token that gives a next state has written all its pixels, or it faulted
(spec/40_rle24_decoder.md R95, R96). -/
def WritesOrFaults (n : Nat) (s t : State) : Prop :=
  (∃ ps k, ps.length = n ∧ Written s t ps k) ∨ FaultsTo s t

/-- LIT, wherever it gives a next state. -/
theorem execLit_next {m : BitVec 7} {cs : List Colour} {s t : State} (h : execLit m cs s = .next t) :
    WritesOrFaults (tokenCount m) s t := by
  by_cases he : s.tokenEnabled = true
  · rcases execLit_cases m cs s he with ⟨_, h'⟩ | ⟨_, hl, u, h', hw⟩ |
      ⟨_, _, v, hv, h'⟩ | ⟨_, h', _⟩ <;>
      (rw [h'] at h; cases h)
    · exact .inr ⟨_, _, _, _, (SameOutsideOpen.refl s).faulted _ _ _ _⟩
    · exact .inl ⟨_, _, by rw [List.length_map, List.length_take, Nat.min_eq_left hl], hw⟩
    · exact .inr ⟨_, _, _, _, hv.faulted _ _ _ _⟩
  · rw [execLit_outOfContext m cs s (Bool.eq_false_of_not_eq_true he)] at h
    cases h

/-- RUN, wherever it gives a next state. -/
theorem execRun_next {m : BitVec 7} {c : Option Colour} {s t : State} (h : execRun m c s = .next t) :
    WritesOrFaults (tokenCount m) s t := by
  by_cases he : s.tokenEnabled = true
  · rcases execRun_cases m c s he with ⟨_, h'⟩ | ⟨_, _, _, u, h', hw⟩ |
      ⟨_, _, v, hv, h'⟩ | ⟨_, h', _⟩ <;>
      (rw [h'] at h; cases h)
    · exact .inr ⟨_, _, _, _, (SameOutsideOpen.refl s).faulted _ _ _ _⟩
    · exact .inl ⟨_, _, List.length_replicate, hw⟩
    · exact .inr ⟨_, _, _, _, hv.faulted _ _ _ _⟩
  · rw [execRun_outOfContext m c s (Bool.eq_false_of_not_eq_true he)] at h
    cases h

/-- HDR, wherever it gives a next state (spec/41_container_reader.md R121, R122). -/
theorem execHdr_next {M : List Byte} {w t f c : Option Word} {s u : State}
    (h : execHdr M w t f c s = .next u) :
    u = s.enterUnsupported s.cur s.cfg.magic.toNat (numLE M) ∨ u = s.enterDone ∨ FaultsTo s u ∨
      ∃ wv tv fv cv, u = bounds s.cur (s.latch wv tv fv cv) := by
  by_cases he : s.headerEnabled = true
  · rcases execHdr_cases M w t f c s he with ⟨_, _, h'⟩ | ⟨_, _, h'⟩ |
      ⟨_, v, _, _, _, _, hv, _, h'⟩ |
      ⟨_, wv, tv, fv, cv, _, _, _, _, _, _, _, ⟨_, h'⟩ | ⟨_, h'⟩⟩ <;>
      (rw [h'] at h; cases h)
    · exact .inl rfl
    · exact .inr (.inl rfl)
    · exact .inr (.inr (.inl ⟨_, _, _, _, hv.faulted _ _ _ _⟩))
    · exact .inr (.inr (.inr ⟨wv, tv, fv, cv, rfl⟩))
  · rw [execHdr_outOfContext M w t f c s (Bool.eq_false_of_not_eq_true he)] at h
    cases h

/-- PADZ, wherever it gives a next state (spec/30_encoding.md R77). -/
theorem execPadz_next {s t : State} (h : execPadz s = .next t) : t = s.advance 1 := by
  unfold execPadz at h
  split at h
  · cases h; rfl
  · cases h

/-- The frame of a token that ended in no fault. -/
theorem WritesOrFaults.frame {n : Nat} {s t : State} (h : WritesOrFaults n s t)
    (hp : t.phase ≠ .formatError) :
    t = { s with cur := t.cur, row := t.row, col := t.col, bank := t.bank } ∧
    ∀ k, k < linearIndex s.w s.row s.col ∨ linearIndex s.w s.row s.col + n ≤ k →
      bankEntry t.bank k = bankEntry s.bank k := by
  rcases h with ⟨ps, k, rfl, hw⟩ | ⟨c, pos, exp, found, hf⟩
  · have hcur : t.cur = s.cur + k := by rw [hw.frame]
    refine ⟨?_, hw.other⟩
    rw [hcur]
    exact hw.frame
  · exact absurd hf.phase hp

/-- Settles O19: a token either wrote all its pixels or faulted. -/
theorem tokenFrame : Obligations.TokenFrame :=
  ⟨fun _ _ _ _ h hp => (execLit_next h).frame hp, fun _ _ _ _ h hp => (execRun_next h).frame hp⟩

/-- Settles O33: of what a header can do, only BOUNDS over the latches enters the payload. -/
theorem hdrFrame : Obligations.HdrFrame := by
  intro M w t f c s u h hp
  rcases execHdr_next h with rfl | rfl | ⟨_, _, _, _, hf⟩ | ⟨wv, tv, fv, cv, rfl⟩
  · cases hp
  · cases hp
  · cases hf.phase.symm.trans hp
  · rfl

/-- What no item writes: the stream, the configuration, SEQ, OUT, RASTER_VALID and the host's samples
(spec/10_state.md R21, R32, spec/20_memory.md R51). -/
structure KeptByItem (s t : State) : Prop where
  mem         : t.mem = s.mem
  len         : t.len = s.len
  cfg         : t.cfg = s.cfg
  seq         : t.seq = s.seq
  out         : t.out = s.out
  rasterValid : t.rasterValid = s.rasterValid
  host        : t.host = s.host

/-- Fault entry keeps them (spec/60_exceptions.md R167). -/
theorem FaultsTo.kept {s t : State} (h : FaultsTo s t) : KeptByItem s t := by
  obtain ⟨_, _, _, _, hf⟩ := h
  exact ⟨hf.stream.1, hf.stream.2, hf.cfg, hf.seq, hf.out, hf.rasterValid, hf.host⟩

/-- A token keeps them. -/
theorem WritesOrFaults.kept {n : Nat} {s t : State} (h : WritesOrFaults n s t) : KeptByItem s t := by
  rcases h with ⟨ps, k, _, hw⟩ | hf
  · rw [hw.frame]
    exact ⟨rfl, rfl, rfl, rfl, rfl, rfl, rfl⟩
  · exact hf.kept

/-- Every item keeps them. -/
theorem exec_keeps {i : Instr} {s t : State} (h : exec i s = .next t) : KeptByItem s t := by
  cases i with
  | lit m cs => exact (execLit_next h).kept
  | run m c => exact (execRun_next h).kept
  | hdr M w x f c =>
    rcases execHdr_next h with rfl | rfl | hf | ⟨wv, tv, fv, cv, rfl⟩
    · exact ⟨rfl, rfl, rfl, rfl, rfl, rfl, rfl⟩
    · exact ⟨rfl, rfl, rfl, rfl, rfl, rfl, rfl⟩
    · exact hf.kept
    · exact ⟨rfl, rfl, rfl, rfl, rfl, rfl, rfl⟩
  | padz =>
    rw [execPadz_next h]
    exact ⟨rfl, rfl, rfl, rfl, rfl, rfl, rfl⟩

/-- Settles O38: item by item, from what each can do; a byte is read from the stream alone. -/
theorem itemsKeepStreamAndOutput : Obligations.ItemsKeepStreamAndOutput := by
  intro i s t h
  obtain ⟨hmem, hlen, hcfg, hseq, hout, hrv, hhost⟩ := exec_keeps h
  exact ⟨byteAt_congr hmem hlen, hmem, hlen, hcfg, hseq, hout, hrv, hhost⟩

/-! ## OUT and the raster in the host's hands -/

/-- Of the moves only FINISH writes SEQ and OUT (spec/10_state.md R27, R37). -/
theorem moves_output {s u : State} (h : Moves s u) :
    (u.seq = s.seq ∧ u.out = s.out) ∨ (s.finishEnabled = true ∧ u = s.finish) := by
  cases h with
  | headerFault v c pos exp found _ _ hv _ =>
    have hf := hv.faulted c pos exp found
    exact .inl ⟨hf.seq, hf.out⟩
  | tokenFault v c pos exp found _ hv =>
    have hf := hv.faulted c pos exp found
    exact .inl ⟨hf.seq, hf.out⟩
  | token _ ps k _ _ _ hw => rw [hw.frame]; exact .inl ⟨rfl, rfl⟩
  | finish he => exact .inr ⟨he, rfl⟩
  | _ => exact .inl ⟨rfl, rfl⟩

/-- While the host holds a raster, a step is RELEASE or it waits (spec/10_state.md R29). -/
theorem moves_handedOver {s u : State} (hi : s.HandOverInv) (hr : s.rasterValid = true)
    (h : Moves s u) :
    u = s ∨ (s.releaseEnabled = true ∧
      ∃ p, u = { s with cur := p, rasterValid := false, phase := .expectHeader }) := by
  have noHeader : s.headerEnabled ≠ true := by
    rw [Ne, headerEnabled_iff, hi.payload hr]
    nofun
  have noToken : s.tokenEnabled ≠ true := by
    rw [Ne, tokenEnabled_iff, hr]
    nofun
  cases h with
  | unsupported M he => exact absurd he noHeader
  | done he => exact absurd he noHeader
  | headerFault v c pos exp found he => exact absurd he noHeader
  | header w t f c he => exact absurd he noHeader
  | tokenFault v c pos exp found he => exact absurd he noToken
  | token _ ps k he => exact absurd he noToken
  | finish he =>
    rw [finishEnabled_iff, hr] at he
    cases he.2.1
  | release p he => exact .inr ⟨he, p, rfl⟩
  | idle => exact .inl rfl

/-- Settles O41: FINISH appends the raster, numbered by the new SEQ; every other move keeps both. -/
theorem outputGrowsOnlyByFinish : Obligations.OutputGrowsOnlyByFinish := by
  rintro s t ⟨ack, ha⟩ hstep
  rcases step_cases hstep with ⟨load, hl, _⟩ | ⟨_, _, u, hm, rfl⟩
  · cases ha.symm.trans hl
  · rcases moves_output hm with ⟨hseq, hout⟩ | ⟨he, rfl⟩
    · exact .inl ⟨hout, hseq⟩
    · exact .inr ⟨he, rfl, s.raster, rfl, rfl⟩

/-- Settles O37: the block waits, or RELEASE ends the hand-over with bank, size and OUT as they were. -/
theorem bankKeptWhileHandedOver : Obligations.BankKeptWhileHandedOver := by
  rintro s t hi hr ⟨ack, ha⟩ hstep
  rcases step_cases hstep with ⟨load, hl, _⟩ | ⟨_, _, u, hm, rfl⟩
  · cases ha.symm.trans hl
  · rcases moves_handedOver hi hr hm with rfl | ⟨he, p, rfl⟩
    · exact ⟨rfl, rfl, rfl, rfl, rfl, fun _ => rfl,
        fun (e : u.rasterValid = false) => by rw [hr] at e; cases e⟩
    · have hack : s.ackNow = true := by
        rw [State.ackNow, (releaseEnabled_iff.mp he).2.2]
      exact ⟨rfl, rfl, rfl, rfl, rfl, nofun, fun _ => ⟨hack, rfl⟩⟩

/-- While RASTER_VALID = 1 the host reads the pixels of a raster with the bank's entries and the size of the
latches (spec/20_memory.md R61). -/
theorem hostReadPixel_eq_yieldedPixel {s : State} (hr : s.rasterValid = true) (i r c : Nat) :
    s.hostReadPixel r c = yieldedPixel ⟨i, s.w, s.h, s.bank⟩ r c := by
  simp only [State.hostReadPixel, yieldedPixel, hr, true_and]

/-- Settles O36: the last entry of OUT has the bank's entries, and it is whole. -/
theorem hostSeesEveryPixel : Obligations.HostSeesEveryPixel := by
  intro s hi
  constructor
  · intro hr r c hrow hcol
    have hlast := hi.handOver.last hr
    obtain ⟨p, hp⟩ := Option.isSome_iff_exists.mp
      (hi.out.whole _ (List.mem_of_getLast? hlast) r c hrow hcol)
    exact ⟨p, _, (hostReadPixel_eq_yieldedPixel hr s.seq r c).trans hp, hlast, rfl, hp⟩
  · intro r c hno
    refine if_neg fun ⟨hr, hrow, hcol⟩ => ?_
    rcases hno with h | h | h
    · rw [h] at hr; cases hr
    · omega
    · omega

end Sys2Proof.Machine
end

section
/-!
# The stream memory and the colours

Byte order of the header fields, of the signature and of a colour (spec/20_memory.md R54 to R56); and that a
step reads the bytes of its item only (spec/20_memory.md R57, R59, spec/30_encoding.md R78): an item decodes
from its own bytes and from what stands there alone.
-/

namespace Sys2Proof

/-! ## The bytes of an item -/

/-- A literal decodes from its own bytes (spec/30_encoding.md R73, R75). -/
theorem decodeToken_encode_lit {m : BitVec 7} {cs : List Colour} (h : cs.length = tokenCount m)
    (rest : List Byte) : decodeToken (encode (.lit m cs) ++ rest) = .ok (.lit m cs, rest) := by
  have hw : (Instr.lit m cs).wellFormed = true := litColours_iff.mpr h
  simp only [encode, List.cons_append, decodeToken, branch_litControl]
  rw [← h, takeColours_bytes, h, countField_tokenCount, if_pos hw]

/-- A run decodes from its own bytes (spec/30_encoding.md R73, R75). -/
theorem decodeToken_encode_run (m : BitVec 7) (c : Colour) (rest : List Byte) :
    decodeToken (encode (.run m (some c)) ++ rest) = .ok (.run m (some c), rest) := by
  have hc : takeColours 1 (c.bytes ++ rest) = ([c], rest) := rfl
  simp only [encode, Option.toList_some, List.flatMap_cons, List.flatMap_nil, List.append_nil,
    List.cons_append, decodeToken, branch_runControl]
  rw [hc, countField_tokenCount]
  rfl

/-- Every whole item decodes from its own bytes, whatever follows them. -/
theorem decode_encode {i : Instr} (h : i.wellFormed = true) (rest : List Byte) :
    decode i.context (encode i ++ rest) = .ok (i, rest) := by
  cases i with
  | lit m cs => exact decodeToken_encode_lit (litColours_iff.mp h) rest
  | run m colour =>
    obtain ⟨c, rfl⟩ := Option.isSome_iff_exists.mp h
    exact decodeToken_encode_run m c rest
  | hdr M w t f c =>
    simp only [Instr.wellFormed, WellFormed.signature, WellFormed.fields, Bool.and_eq_true, beq_iff_eq,
      Option.isSome_iff_exists] at h
    obtain ⟨hM, ⟨⟨⟨w, rfl⟩, t, rfl⟩, f, rfl⟩, c, rfl⟩ := h
    exact decodeHeader_encode M hM w t f c rest
  | padz => rfl

/-- Decoding `bs` in the context `c` finds `i`, whole or cut short, and keeps every byte: those of `i` and
those of `left` (spec/30_encoding.md R80). -/
structure Parsed (c : Context) (bs : List Byte) (i : Instr) (left : List Byte) : Prop where
  context : i.context = c
  bytes   : encode i ++ left = bs
  result  : decode c bs = if i.wellFormed then .ok (i, left) else .error (.cutShort i left)

/-- Format H always finds an item (spec/30_encoding.md R71). -/
theorem exists_parsed_header (bs : List Byte) : ∃ i left, Parsed .header bs i left := by
  let r1 := takeField (bs.drop 8)
  let r2 := takeField r1.2
  let r3 := takeField r2.2
  let r4 := takeField r3.2
  refine ⟨.hdr (bs.take 8) r1.1 r2.1 r3.1 r4.1, r4.2, rfl, ?_, rfl⟩
  calc encode (.hdr (bs.take 8) r1.1 r2.1 r3.1 r4.1) ++ r4.2
      = bs.take 8 ++ (fieldBytes r1.1 ++ (fieldBytes r2.1 ++
          (fieldBytes r3.1 ++ (fieldBytes r4.1 ++ r4.2)))) := by simp only [encode, List.append_assoc]
    _ = bs.take 8 ++ bs.drop 8 := by
        rw [(takeField_spec r3.2).1, (takeField_spec r2.2).1, (takeField_spec r1.2).1,
          (takeField_spec (bs.drop 8)).1]
    _ = bs := List.take_append_drop 8 bs

/-- A list of at most one element is what its head gives. -/
theorem toList_head?_of_length_le_one {α : Type} {l : List α} (h : l.length ≤ 1) : l.head?.toList = l := by
  match l with
  | [] | [_] => rfl
  | _ :: _ :: _ => simp at h

/-- Format T finds an item wherever there is a control byte (spec/30_encoding.md R73 to R76). -/
theorem exists_parsed_token (b : Byte) (bs : List Byte) : ∃ i left, Parsed .token (b :: bs) i left := by
  have hb := controlN_le b
  by_cases hn : controlN b ≤ 128
  · obtain ⟨hbytes, _, _⟩ := takeColours_spec (controlN b) bs
    refine ⟨.lit (countField (controlN b)) (takeColours (controlN b) bs).1,
      (takeColours (controlN b) bs).2, rfl, ?_, ?_⟩
    · simp only [encode, List.cons_append]
      rw [tokenCount_countField hb.1 hn, litControl_controlN hn, hbytes]
    · simp only [decode, decodeToken, branch_le hn]
  · have hn : 128 < controlN b := by omega
    obtain ⟨hbytes, hlen, _⟩ := takeColours_spec 1 bs
    refine ⟨.run (countField (controlN b - 128)) (takeColours 1 bs).1.head?, (takeColours 1 bs).2,
      rfl, ?_, ?_⟩
    · simp only [encode, List.cons_append]
      rw [tokenCount_countField (by omega) (by omega), runControl_controlN hn,
        toList_head?_of_length_le_one hlen, hbytes]
    · simp only [decode, decodeToken, branch_gt hn]

/-- What decodes as a whole item is that item's bytes and the rest. -/
theorem Parsed.of_ok {c : Context} {bs left rest : List Byte} {i j : Instr} (h : Parsed c bs j left)
    (hdec : decode c bs = .ok (i, rest)) :
    i.wellFormed = true ∧ i.context = c ∧ encode i ++ rest = bs := by
  obtain ⟨hcontext, hbytes, hresult⟩ := h
  rw [hresult] at hdec
  split at hdec
  · next hw => cases hdec; exact ⟨hw, hcontext, hbytes⟩
  · cases hdec

/-- What decodes is whole, of its context, and encodes to the bytes it was read from. -/
theorem encode_of_decode {c : Context} {bs rest : List Byte} {i : Instr}
    (h : decode c bs = .ok (i, rest)) :
    i.wellFormed = true ∧ i.context = c ∧ encode i ++ rest = bs := by
  match c, bs with
  | .header, bs =>
    obtain ⟨_, _, hp⟩ := exists_parsed_header bs
    exact hp.of_ok h
  | .token, [] => cases h
  | .token, b :: bs =>
    obtain ⟨_, _, hp⟩ := exists_parsed_token b bs
    exact hp.of_ok h
  | .pad, [] => cases h
  | .pad, b :: bs =>
    simp only [decode, decodePad] at h
    split at h
    · next hb => cases h; subst hb; exact ⟨rfl, rfl, rfl⟩
    · cases h

/-- A whole item has the length of its format (spec/30_encoding.md R76). -/
theorem encode_length {i : Instr} (h : i.wellFormed = true) : (encode i).length = i.byteLength := by
  cases i with
  | lit m cs => exact Laws.EncodedLength.lit m cs h
  | run m c => exact Laws.EncodedLength.run m c h
  | hdr M w t f c => exact Laws.EncodedLength.hdr M w t f c h
  | padz => exact Laws.EncodedLength.padz h

/-! ## Byte order -/

/-- Byte `i` of a number is its bits `8i+7` to `8i` (spec/20_memory.md R55). -/
theorem leBytes_getElem? {k i : Nat} (v : Nat) (h : i < k) :
    (leBytes k v)[i]? = some (BitVec.ofNat 8 (v >>> (8 * i))) := by
  induction k generalizing v i with
  | zero => omega
  | succ k ih =>
    cases i with
    | zero => rfl
    | succ i =>
      have hv : v >>> (8 * (i + 1)) = (v / 256) >>> (8 * i) := by
        rw [Nat.mul_succ, Nat.add_comm, Nat.shiftRight_add, Nat.shiftRight_eq_div_pow v 8]
      rw [leBytes, List.getElem?_cons_succ, ih _ (by omega), hv]

/-- The components of a pixel are those of its colour, unchanged (spec/20_memory.md R56, R60). -/
theorem extractLsb'_pixel (c : Colour) :
    c.pixel.extractLsb' 16 8 = c.red ∧ c.pixel.extractLsb' 8 8 = c.green ∧
      c.pixel.extractLsb' 0 8 = c.blue := by
  have hp := colour_pixel_toNat c
  have hr := c.red.isLt; have hg := c.green.isLt; have hb := c.blue.isLt
  refine ⟨?_, ?_, ?_⟩ <;> apply BitVec.eq_of_toNat_eq <;>
    rw [BitVec.extractLsb'_toNat, hp, Nat.shiftRight_eq_div_pow] <;> omega

/-- Settles O7: the field bytes are those of the words LE32 gives. -/
theorem headerFieldsAreLittleEndian : Obligations.HeaderFieldsAreLittleEndian := by
  intro M rest w0 w1 w2 w3 t0 t1 t2 t3 f0 f1 f2 f3 c0 c1 c2 c3 hM
  refine ⟨le32 w0 w1 w2 w3, le32 t0 t1 t2 t3, le32 f0 f1 f2 f3, le32 c0 c1 c2 c3, ?_,
    le32_toNat .., le32_toNat .., le32_toNat .., le32_toNat ..⟩
  have hdec := decodeHeader_encode M hM (le32 w0 w1 w2 w3) (le32 t0 t1 t2 t3) (le32 f0 f1 f2 f3)
    (le32 c0 c1 c2 c3) rest
  simpa only [decode, encode, fieldBytes, leBytes_le32, List.append_assoc, List.cons_append,
    List.nil_append] using hdec

end Sys2Proof

namespace Sys2Proof.Machine

/-- Byte `i` of the signature is byte `i` of the port (spec/42_host_interface.md R150). -/
theorem magicBytes_getElem? (cfg : Config) {i : Nat} (h : i < 8) :
    (magicBytes cfg)[i]? = some (cfg.magic.extractLsb' (8 * i) 8) :=
  leBytes_getElem? _ h

/-- Settles O30: lists of eight bytes are equal when their bytes are. -/
theorem signatureComparedByteForByte : Obligations.SignatureComparedByteForByte := by
  intro cfg M
  have hlen : (magicBytes cfg).length = 8 := leBytes_length _ _
  constructor
  · rintro rfl
    exact ⟨hlen, fun i hi => magicBytes_getElem? cfg hi⟩
  · rintro ⟨hM, hbytes⟩
    apply List.ext_getElem?
    intro i
    by_cases hi : i < 8
    · rw [hbytes i hi, magicBytes_getElem? cfg hi]
    · rw [List.getElem?_eq_none (by omega), List.getElem?_eq_none (by omega)]

/-! ## The pixel a token of one writes -/

/-- A pixel remains where a token is parsed inside the width (spec/40_rle24_decoder.md R94). -/
theorem remaining_pos {s : State} (he : s.tokenEnabled = true) (hc : s.col < s.w.toNat) :
    1 ≤ s.remaining := by
  have hrow := (tokenEnabled_iff.mp he).2.2
  have : 1 * s.w.toNat ≤ (s.h.toNat - s.row) * s.w.toNat := Nat.mul_le_mul_right _ (by omega)
  unfold State.remaining
  omega

/-- A whole token of one pixel writes it at the scan position. -/
theorem exec_tokenOfOne {i : Instr} {s : State} {p : Pixel} (hw : i.wellFormed = true)
    (hi : i.context = .token) (hp : i.pixels = [p]) (he : s.tokenEnabled = true)
    (hc : s.col < s.w.toNat) (hd : s.w.toNat * s.h.toNat ≤ s.cfg.pixbankDepth) :
    ∃ t, exec i s = .next t ∧ bankEntry t.bank (linearIndex s.w s.row s.col) = some p := by
  obtain ⟨t, ht, hwritten⟩ := exec_wholeToken hw hi he hc hd (by rw [hp]; exact remaining_pos he hc)
  rw [hp] at hwritten
  exact ⟨t, ht, hwritten.pixel 0 Nat.one_pos⟩

/-- Settles O8: the four bytes are those of a literal and of a run of one, and each writes the pixel of
their colour. -/
theorem colourIsBlueGreenRedOnTheWire : Obligations.ColourIsBlueGreenRedOnTheWire := by
  intro b g r rest
  obtain ⟨hred, hgreen, hblue⟩ := extractLsb'_pixel ⟨b, g, r⟩
  refine ⟨decode_encode (i := .lit 0 [⟨b, g, r⟩]) rfl rest,
    decode_encode (i := .run 0 (some ⟨b, g, r⟩)) rfl rest, hred, hgreen, hblue, fun s he hc hd => ?_⟩
  obtain ⟨t, ht, htp⟩ := exec_tokenOfOne (i := .lit 0 [⟨b, g, r⟩]) rfl rfl rfl he hc hd
  obtain ⟨u, hu, hup⟩ := exec_tokenOfOne (i := .run 0 (some ⟨b, g, r⟩)) rfl rfl rfl he hc hd
  exact ⟨t, u, ht, hu, htp, hup⟩

/-! ## The bytes a step reads -/

/-- The state with another stream content. -/
def State.withMem (m : Memory) (s : State) : State :=
  { s with mem := m }

/-- An item of a HEADER or TOKEN step reads no stream content of its own (spec/20_memory.md R57). -/
theorem exec_withMem {i : Instr} (hi : i.context ≠ .pad) (m : Memory) (s : State) :
    exec i (s.withMem m) = mapNext (State.withMem m) (exec i s) := by
  have h : exec i (s.withMem m) = mapNext (State.withInputs m s.host) (exec i s) :=
    exec_withInputs i hi s
  rw [h]
  cases hex : exec i s with
  | next t =>
    have hhost : t.host = s.host := (exec_keeps hex).host
    simp only [mapNext_next, State.withInputs, State.withMem, ← hhost]
  | fault r => rfl
  | refused r => rfl

/-- The stream content and the host's samples are written independently. -/
theorem mapNext_tick_withMem (m : Memory) (o : StepOutcome) :
    mapNext State.tick (mapNext (State.withMem m) o) = mapNext (State.withMem m) (mapNext State.tick o) := by
  cases o <;> rfl

/-- A state that parses an item reads no padding (spec/30_encoding.md R79). -/
theorem State.parses.ne_pad {s : State} {c : Context} (h : s.parses c) : c ≠ .pad := by
  rcases h with ⟨rfl, _⟩ | ⟨rfl, _⟩ <;> decide

/-- The item at the cursor is decoded again where the stream holds the same bytes for it, whatever it holds
elsewhere (spec/30_encoding.md R78). -/
theorem decode_fetch_congr {s t : State} {c : Context} {i : Instr} {rest : List Byte}
    (hcur : t.cur = s.cur) (hdec : decode c (s.fetch c) = .ok (i, rest))
    (hbytes : ∀ k, k < i.byteLength → t.byteAt (s.cur + k) = s.byteAt (s.cur + k)) :
    ∃ rest', decode c (t.fetch c) = .ok (i, rest') := by
  obtain ⟨hw, rfl, happ⟩ := encode_of_decode hdec
  have hlen := encode_length hw
  have hle : i.byteLength ≤ i.context.maxBytes := by
    have := congrArg List.length happ
    rw [State.fetch, List.length_append, window_length] at this
    omega
  have hitem : t.window s.cur i.byteLength = encode i := by
    rw [window_congr _ _ hbytes, ← hlen]
    exact (window_of_append happ).1
  refine ⟨t.window (s.cur + i.byteLength) (i.context.maxBytes - i.byteLength), ?_⟩
  have hfetch : t.fetch i.context = encode i ++
      t.window (s.cur + i.byteLength) (i.context.maxBytes - i.byteLength) := by
    rw [← hitem, ← window_add _ _ _ _ (by rw [hitem, hlen]), Nat.add_sub_cancel' hle, State.fetch, hcur]
  rw [hfetch]
  exact decode_encode hw _

/-- Settles O15: the same item is decoded, and its meaning reads no stream content. -/
theorem bytesOutsideItemDoNotMatter : Obligations.BytesOutsideItemDoNotMatter := by
  intro s m c i rest hp hr hdec hmem
  show step (s.withMem m) = mapNext (State.withMem m) (step s)
  obtain ⟨ack, ha⟩ := hr
  have ha' : (s.withMem m).hostNow = .running ack := ha
  cases hm : s.legalMagic with
  | false => rw [step_illegalMagic ha hm, step_illegalMagic ha' hm]; rfl
  | true =>
    have hbytes : ∀ k, k < i.byteLength → (s.withMem m).byteAt (s.cur + k) = s.byteAt (s.cur + k) := by
      intro k hk
      rw [byteAt_eq, byteAt_eq]
      simp only [State.withMem, hmem (s.cur + k) (by omega) (by omega)]
    obtain ⟨rest', hdec'⟩ := decode_fetch_congr (s := s) (t := s.withMem m) rfl hdec hbytes
    have hi : i.context ≠ .pad := (encode_of_decode hdec).2.1 ▸ hp.ne_pad
    rw [stepRunsDecodedItem s c i rest hp ⟨ack, ha⟩ hm (.inl hdec),
      stepRunsDecodedItem (s.withMem m) c i rest' hp ⟨ack, ha'⟩ hm (.inl hdec'),
      exec_withMem hi, mapNext_tick_withMem]

end Sys2Proof.Machine
end

section
/-!
# The encoding

Decoding and encoding undo each other (spec/30_encoding.md R71 to R77, R80, R82), an item has a meaning only in
the states that parse its context (spec/30_encoding.md R79), and the zero skip runs its padding byte by byte
(spec/30_encoding.md R77, spec/41_container_reader.md R130, R131).
-/

namespace Sys2Proof

/-! ## Items from their bytes -/

/-- Settles O10: constructor by constructor, each format's parser reads back what its encoder writes. -/
theorem decodeOfEncode : Obligations.DecodeOfEncode :=
  fun _ rest h => decode_encode h rest

/-- Settles O9: each word is the encoding of its item, and that decodes back. -/
theorem specWordsDecode : Obligations.SpecWordsDecode :=
  ⟨decode_encode (i := .lit 0 [⟨0x10, 0x20, 0x30⟩]) rfl [],
    decode_encode (i := .run 127 (some ⟨0x01, 0x02, 0x03⟩)) rfl [],
    decode_encode (i := .run 0 (some ⟨0xFF, 0xFF, 0xFF⟩)) rfl [],
    decode_encode (i := .hdr [0x53, 0x50, 0x4C, 0x41, 0x53, 0x48, 0x21, 0x21]
      (some 2) (some 3) (some 1) (some 1)) rfl [],
    decode_encode (i := .padz) rfl [0x53]⟩

/-! ## What decoding answers -/

/-- No item is longer than its context allows (spec/30_encoding.md R76). -/
theorem byteLength_le_maxBytes (i : Instr) : i.byteLength ≤ i.context.maxBytes := by
  cases i with
  | lit m cs =>
    have := tokenCount_le m
    simp only [Instr.byteLength, Instr.context, Context.maxBytes]
    omega
  | run m c => exact (by decide : 4 ≤ 385)
  | hdr M w t f c => exact le_refl 24
  | padz => exact le_refl 1

/-- What decodes as cut short is that item's bytes and the rest, and is not whole. -/
theorem Parsed.of_cutShort {c : Context} {bs left rest : List Byte} {i j : Instr}
    (h : Parsed c bs j left) (hdec : decode c bs = .error (.cutShort i rest)) :
    i.wellFormed = false ∧ i.context = c ∧ encode i ++ rest = bs := by
  obtain ⟨hcontext, hbytes, hresult⟩ := h
  rw [hresult] at hdec
  split at hdec
  · cases hdec
  · next hw => cases hdec; exact ⟨Bool.eq_false_of_not_eq_true hw, hcontext, hbytes⟩

/-- A padding byte is never cut short (spec/30_encoding.md R77). -/
theorem decodePad_ne_cutShort (bs left : List Byte) (i : Instr) :
    decodePad bs ≠ .error (.cutShort i left) := by
  cases bs with
  | nil => nofun
  | cons b bs =>
    simp only [decodePad]
    split <;> nofun

/-- Of a cut-off item every byte is kept (spec/30_encoding.md R80). -/
theorem encode_of_cutShort {c : Context} {bs left : List Byte} {i : Instr}
    (h : decode c bs = .error (.cutShort i left)) :
    i.wellFormed = false ∧ i.context = c ∧ encode i ++ left = bs := by
  match c, bs with
  | .header, bs =>
    obtain ⟨_, _, hp⟩ := exists_parsed_header bs
    exact hp.of_cutShort h
  | .token, [] => cases h
  | .token, b :: bs =>
    obtain ⟨_, _, hp⟩ := exists_parsed_token b bs
    exact hp.of_cutShort h
  | .pad, bs => exact absurd h (decodePad_ne_cutShort bs left i)

/-! ## Only the end of the stream cuts an item off -/

/-- Where four bytes are left, a field is read and takes four (spec/41_container_reader.md R123). -/
theorem takeField_of_four_le {bs : List Byte} (h : 4 ≤ bs.length) :
    (takeField bs).1.isSome = true ∧ (takeField bs).2.length = bs.length - 4 := by
  match bs with
  | [] | [_] | [_, _] | [_, _, _] => simp at h
  | _ :: _ :: _ :: _ :: _ => exact ⟨rfl, by simp [takeField]⟩

/-- 24 bytes hold a whole header record (spec/30_encoding.md R71). -/
theorem decodeHeader_cutShort_length {bs left : List Byte} {i : Instr}
    (h : decodeHeader bs = .error (.cutShort i left)) : bs.length < i.byteLength := by
  simp only [decodeHeader] at h
  split at h
  · cases h
  next hw =>
    cases h
    by_contra hlen
    have hlen : 24 ≤ bs.length := Nat.le_of_not_lt hlen
    have hdrop : (bs.drop 8).length = bs.length - 8 := List.length_drop
    obtain ⟨hwidth, h1⟩ := takeField_of_four_le (bs := bs.drop 8) (by omega)
    obtain ⟨hheight, h2⟩ := takeField_of_four_le (bs := (takeField (bs.drop 8)).2) (by omega)
    obtain ⟨hflag, h3⟩ := takeField_of_four_le (bs := (takeField (takeField (bs.drop 8)).2).2) (by omega)
    obtain ⟨hblocks, _⟩ := takeField_of_four_le
      (bs := (takeField (takeField (takeField (bs.drop 8)).2).2).2) (by omega)
    have hsignature : (bs.take 8).length = 8 := by rw [List.length_take]; omega
    exact hw (by simp only [Instr.wellFormed, WellFormed.signature, WellFormed.fields, hsignature,
      hwidth, hheight, hflag, hblocks]; rfl)

/-- Fewer colours than asked for: the bytes do not hold that many (spec/30_encoding.md R75). -/
theorem length_lt_of_takeColours_lt {n : Nat} {bs : List Byte}
    (h : (takeColours n bs).1.length < n) : bs.length < 3 * n := by
  obtain ⟨hbytes, _, hleft⟩ := takeColours_spec n bs
  have hlen := congrArg List.length hbytes
  rw [List.length_append, colours_bytes_length] at hlen
  have := hleft h
  omega

/-- A token is cut short only where the stream does not hold its colours (spec/30_encoding.md R76). -/
theorem decodeToken_cutShort_length {bs left : List Byte} {i : Instr}
    (h : decodeToken bs = .error (.cutShort i left)) : bs.length < i.byteLength := by
  cases bs with
  | nil => cases h
  | cons b bs =>
    have hb := controlN_le b
    simp only [decodeToken] at h
    by_cases hn : controlN b ≤ 128
    · simp only [branch_le hn] at h
      split at h
      · cases h
      next hw =>
        cases h
        have hcount := tokenCount_countField hb.1 hn
        have hne : (takeColours (controlN b) bs).1.length ≠ controlN b := fun e =>
          hw (litColours_iff.mpr (e.trans hcount.symm))
        have hle := (takeColours_spec (controlN b) bs).2.1
        have := length_lt_of_takeColours_lt (Nat.lt_of_le_of_ne hle hne)
        simp only [Instr.byteLength, hcount, List.length_cons]
        omega
    · simp only [branch_gt (Nat.lt_of_not_le hn)] at h
      split at h
      · cases h
      next hw =>
        cases h
        have hnone : (takeColours 1 bs).1 = [] :=
          List.head?_eq_none_iff.mp (Option.not_isSome_iff_eq_none.mp hw)
        have : bs.length < 3 * 1 := length_lt_of_takeColours_lt (by rw [hnone]; exact Nat.one_pos)
        simp only [Instr.byteLength, List.length_cons]
        omega

/-- An item is cut short only where its length does not fit. -/
theorem decode_cutShort_length {c : Context} {bs left : List Byte} {i : Instr}
    (h : decode c bs = .error (.cutShort i left)) : bs.length < i.byteLength := by
  cases c with
  | header => exact decodeHeader_cutShort_length h
  | token => exact decodeToken_cutShort_length h
  | pad => exact absurd h (decodePad_ne_cutShort bs left i)

/-- Settles O11: every item found, whole or cut short, keeps its bytes, and one that fits is whole. -/
theorem encodeOfDecode : Obligations.EncodeOfDecode := by
  constructor
  · intro c bs rest i h
    obtain ⟨hw, rfl, hbytes⟩ := encode_of_decode h
    exact ⟨hw, rfl, hbytes, encode_length hw, byteLength_le_maxBytes i⟩
  · intro c bs left i h
    obtain ⟨hw, hcontext, hbytes⟩ := encode_of_cutShort h
    exact ⟨hw, hcontext, hbytes, decode_cutShort_length h⟩

end Sys2Proof

namespace Sys2Proof.Machine

/-! ## Items out of context -/

/-- LIT is refused for its context exactly where TOKEN is not enabled (spec/30_encoding.md R79). -/
theorem execLit_outOfContext_iff {m : BitVec 7} {cs : List Colour} {s : State} :
    execLit m cs s = .refused (.outOfContext .token) ↔ s.tokenEnabled = false :=
  ⟨fun h => Bool.eq_false_of_not_eq_true fun he => execLit_ne_refused he m cs _ h,
    execLit_outOfContext m cs s⟩

/-- RUN is refused for its context exactly where TOKEN is not enabled (spec/30_encoding.md R79). -/
theorem execRun_outOfContext_iff {m : BitVec 7} {c : Option Colour} {s : State} :
    execRun m c s = .refused (.outOfContext .token) ↔ s.tokenEnabled = false :=
  ⟨fun h => Bool.eq_false_of_not_eq_true fun he => execRun_ne_refused he m c _ h,
    execRun_outOfContext m c s⟩

/-- An enabled header is refused for the bank's capacity only (spec/41_container_reader.md R124). -/
theorem execHdr_refused {M : List Byte} {w t f c : Option Word} {s : State} {r : Refusal}
    (he : s.headerEnabled = true) (h : execHdr M w t f c s = .refused r) : r = .rasterTooLarge := by
  rcases execHdr_cases M w t f c s he with ⟨_, _, h'⟩ | ⟨_, _, h'⟩ | ⟨_, _, _, _, _, _, _, _, h'⟩ |
    ⟨_, _, _, _, _, _, _, _, _, _, _, _, ⟨_, h'⟩ | ⟨_, h'⟩⟩ <;> (rw [h'] at h; cases h)
  rfl

/-- HDR is refused for its context exactly where HEADER is not enabled (spec/30_encoding.md R79). -/
theorem execHdr_outOfContext_iff {M : List Byte} {w t f c : Option Word} {s : State} :
    execHdr M w t f c s = .refused (.outOfContext .header) ↔ s.headerEnabled = false :=
  ⟨fun h => Bool.eq_false_of_not_eq_true fun he => (nomatch execHdr_refused he h),
    execHdr_outOfContext M w t f c s⟩

/-- PADZ is refused for its context exactly where RELEASE is not enabled (spec/30_encoding.md R79). -/
theorem execPadz_outOfContext_iff {s : State} :
    execPadz s = .refused (.outOfContext .pad) ↔ s.releaseEnabled = false := by
  unfold execPadz
  cases s.releaseEnabled <;> simp

/-- Settles O39: an enabled item is refused for no reason of context, item by item. -/
theorem itemsOutOfContextRefused : Obligations.ItemsOutOfContextRefused := by
  intro i s
  cases i with
  | lit m cs => simpa [exec, Instr.context] using execLit_outOfContext_iff
  | run m c => simpa [exec, Instr.context] using execRun_outOfContext_iff
  | hdr M w t f c => simpa [exec, Instr.context] using execHdr_outOfContext_iff
  | padz => simpa [exec, Instr.context] using execPadz_outOfContext_iff

/-! ## Padding -/

/-- Settles O34: PADZ moves the cursor by one, and nothing else. -/
theorem padzCompletes : Obligations.PadzCompletes :=
  fun _ h => execPadz_enabled h

/-- RELEASE over a zero byte is RELEASE from the next position (spec/41_container_reader.md R131). -/
theorem release_zero {s : State} (h : s.releaseEnabled = true) (hb : s.byteAt s.cur = some 0x00) :
    release s = release (s.advance 1) := by
  have hlt : s.cur < s.len := byteAt_isSome.mp (by rw [hb]; rfl)
  have hleft : s.left s.cur = (s.advance 1).left (s.advance 1).cur + 1 := by
    simp only [State.left, State.advance_len, State.advance_cur]
    omega
  rw [release, release, hleft, skipz_zero h hb]

/-- RELEASE at no zero byte closes there (spec/41_container_reader.md R130). -/
theorem release_stop {s : State} (hb : s.byteAt s.cur ≠ some 0x00) :
    release s = .next s.closeRelease := by
  rw [release, skipz_stop hb, mapNext_next]

/-- Where RELEASE is enabled it is the step (spec/10_state.md R20). -/
theorem step_release {s : State} (h : s.releaseEnabled = true) (hm : s.legalMagic = true) :
    step s = mapNext State.tick (release s) := by
  obtain ⟨_, _, hack⟩ := releaseEnabled_iff.mp h
  rw [step_running hack hm, runStep_release h]

/-- Settles O13: the step is RELEASE, at the cursor and after one PADZ. -/
theorem releaseRunsPadding : Obligations.ReleaseRunsPadding := by
  intro s h hm
  refine ⟨fun hb => ⟨execPadz_enabled h, ?_⟩, fun hb => ?_⟩
  · rw [step_release h hm, release_zero h hb, step_release (s := s.advance 1) h hm]
  · rw [step_release h hm, release_stop hb, mapNext_next]

end Sys2Proof.Machine
end

section
/-!
# The RLE24 decoder

The tokens (spec/40_rle24_decoder.md): the brancher and the scan order, what a token that fits writes, where a
token faults, that no step of a reachable state faults in the model, and the pixels of a whole payload.
-/

namespace Sys2Proof

/-! ## The brancher -/

/-- Bit 7 of a byte is set from 128 on (spec/30_encoding.md R73). -/
theorem getLsbD_seven_iff (b : Byte) : b.getLsbD 7 = true ↔ 128 ≤ b.toNat := by
  rw [← BitVec.msb_eq_getLsbD_last b, BitVec.msb_eq_decide, decide_eq_true_iff]

/-- The brancher's kind and count are bit 7 and bits 6:0 of the control byte
(spec/40_rle24_decoder.md R93). -/
theorem branch_controlN_bits (b : Byte) :
    ((branch (controlN b)).1 = .run ↔ b.getLsbD 7 = true) ∧
    (branch (controlN b)).2 = tokenCount (b.extractLsb' 0 7) := by
  have hlt := b.isLt
  have hfield : (b.extractLsb' 0 7).toNat = b.toNat % 128 := BitVec.extractLsb'_toNat 0 7 b
  rw [getLsbD_seven_iff]
  unfold tokenCount
  rw [hfield]
  by_cases h : controlN b ≤ 128
  · rw [branch_le h]
    unfold controlN at h ⊢
    exact ⟨⟨nofun, fun _ => by omega⟩, show b.toNat + 1 = b.toNat % 128 + 1 by omega⟩
  · rw [branch_gt (Nat.lt_of_not_le h)]
    unfold controlN at h ⊢
    exact ⟨⟨fun _ => by omega, fun _ => rfl⟩, show b.toNat + 1 - 128 = b.toNat % 128 + 1 by omega⟩

/-- Settles O6: the count is that of a 7-bit field, so it lies between 1 and 128. -/
theorem branchSplitsControlByte : Obligations.BranchSplitsControlByte := by
  refine ⟨fun _ => rfl, fun b => ?_, rfl, rfl, rfl, rfl⟩
  obtain ⟨hkind, hcount⟩ := branch_controlN_bits b
  exact ⟨hcount ▸ tokenCount_pos _, hcount ▸ tokenCount_le _, hkind, hcount⟩

end Sys2Proof

namespace Sys2Proof.Machine

/-! ## The scan order -/

/-- Settles O16: one pixel further is one linear index further, and both coordinates stay within an image's
sizes, which have 32 bits. -/
theorem nextPositionIsRowMajor : Obligations.NextPositionIsRowMajor := by
  refine ⟨fun _ _ _ => rfl,
    fun r c w hc => ⟨linearIndex_nextPosition w r c, nextPosition_col_lt hc⟩,
    fun r c w h hc hr => ?_, fun _ => rfl, rfl, rfl, rfl⟩
  have hrow : (nextPosition r c w).1 ≤ h.toNat := by
    unfold nextPosition
    split
    · exact hr
    · exact hr.le
  exact ⟨hrow, hrow.trans_lt h.isLt, (nextPosition_col_lt hc).trans w.isLt⟩

/-! ## Tokens that fit -/

/-- The state after some pixels: the scan position is the quotient and remainder of the new linear index. -/
theorem Written.state_eq {s t : State} {ps : List Pixel} {k : Nat} (h : Written s t ps k)
    (hc : s.col < s.w.toNat) :
    t = { s with
      cur := s.cur + k
      row := (linearIndex s.w s.row s.col + ps.length) / s.w.toNat
      col := (linearIndex s.w s.row s.col + ps.length) % s.w.toNat
      bank := t.bank } := by
  obtain ⟨hrow, hcol⟩ := scan_of_linearIndex (h.column hc) h.index
  rw [← hrow, ← hcol]
  exact h.frame

/-- What a whole token does where its `n` pixels fit (spec/40_rle24_decoder.md R102). -/
theorem exec_wholeToken_completes {i : Instr} {s : State} {n : Nat} (hw : i.wellFormed = true)
    (hi : i.context = .token) (he : s.tokenEnabled = true) (hc : s.col < s.w.toNat)
    (hd : s.w.toNat * s.h.toNat ≤ s.cfg.pixbankDepth) (hn : i.pixels.length = n)
    (hr : n ≤ s.remaining) :
    ∃ b : Bank,
      exec i s = .next { s with
        cur := s.cur + i.byteLength
        row := (linearIndex s.w s.row s.col + n) / s.w.toNat
        col := (linearIndex s.w s.row s.col + n) % s.w.toNat
        bank := b } ∧
      (∀ k, k < n → bankEntry b (linearIndex s.w s.row s.col + k) = i.pixels[k]?) ∧
      (∀ k, k < linearIndex s.w s.row s.col ∨ linearIndex s.w s.row s.col + n ≤ k →
        bankEntry b k = bankEntry s.bank k) := by
  subst hn
  obtain ⟨t, ht, hwritten⟩ := exec_wholeToken hw hi he hc hd hr
  exact ⟨t.bank, ht.trans (congrArg _ (hwritten.state_eq hc)), hwritten.pixel, hwritten.other⟩

/-- Settles O17: the pixels of a whole literal are its colours'. -/
theorem litCompletes : Obligations.LitCompletes := by
  intro m colours s he hc hd hwhole hfit
  have hlen : (Instr.lit m colours).pixels.length = tokenCount m := by
    rw [Instr.pixels, List.length_map, litColours_iff.mp hwhole]
  obtain ⟨b, hexec, hpixel, hother⟩ :=
    exec_wholeToken_completes (i := .lit m colours) hwhole rfl he hc hd hlen hfit
  exact ⟨b, hexec, fun k hk => (hpixel k hk).trans List.getElem?_map, hother⟩

/-- The pixels of a run are its colour, as often as it counts (spec/40_rle24_decoder.md R96). -/
theorem pixels_run_some (m : BitVec 7) (c : Colour) :
    (Instr.run m (some c)).pixels = List.replicate (tokenCount m) c.pixel :=
  List.append_nil _

/-- Settles O18: the pixels of a whole run are its colour, repeated. -/
theorem runCompletes : Obligations.RunCompletes := by
  intro m colour s he hc hd hfit
  have hlen : (Instr.run m (some colour)).pixels.length = tokenCount m := by
    rw [pixels_run_some, List.length_replicate]
  obtain ⟨b, hexec, hpixel, hother⟩ :=
    exec_wholeToken_completes (i := .run m (some colour)) rfl rfl he hc hd hlen hfit
  refine ⟨b, hexec, fun k hk => (hpixel k hk).trans ?_, hother⟩
  rw [pixels_run_some, List.getElem?_replicate_of_lt hk]

/-- Settles O20: both read the colour and write one pixel. -/
theorem runOfOneActsAsLiteralOfOne : Obligations.RunOfOneActsAsLiteralOfOne := by
  intro colour s
  have hpixels : ∀ t, colourOperand (some colour) t (runPixels (tokenCount 0)) =
      literalPixels (tokenCount 0) [colour] t := fun _ => rfl
  show execRun 0 (some colour) s = execLit 0 [colour] s
  unfold execRun execLit
  simp only [hpixels]

/-! ## Tokens that fault -/

/-- Settles O21: the guard comes before any operand. -/
theorem overrunFaults : Obligations.OverrunFaults := by
  intro m s he hover
  have hfault : Faulted s (s.faultEntry .rasterOverrun s.cur s.remaining (tokenCount m))
      .rasterOverrun s.cur s.remaining (tokenCount m) := (SameOutsideOpen.refl s).faulted _ _ _ _
  refine ⟨fun colours => ⟨_, ?_, hfault⟩, fun colour => ⟨_, ?_, hfault⟩⟩
  · rcases execLit_cases m colours s he with ⟨_, h⟩ | ⟨_, _⟩ | ⟨_, _⟩ | ⟨_, _⟩
    · exact h
    all_goals omega
  · rcases execRun_cases m colour s he with ⟨_, h⟩ | ⟨_, _⟩ | ⟨_, _⟩ | ⟨_, _⟩
    · exact h
    all_goals omega

/-- A run whose colour is short looks at no bank entry (spec/40_rle24_decoder.md R96). -/
theorem execRun_none {m : BitVec 7} {s : State} (he : s.tokenEnabled = true)
    (hfit : tokenCount m ≤ s.remaining) :
    execRun m none s = .next ((s.advance 1).faultEntry .truncatedStream (s.cur + 1) 3
      (s.len - (s.cur + 1))) := by
  unfold execRun controlAndGuard
  rw [if_pos he, if_neg (Nat.not_lt.mpr hfit)]
  rfl

/-- Settles O23: the guard passes and the colour operand is short. -/
theorem runCutShortFaults : Obligations.RunCutShortFaults := by
  intro m s he hfit
  have hopen : SameOutsideOpen s (s.advance 1) := rfl
  exact ⟨_, execRun_none he hfit, hopen.faulted _ _ _ _⟩

/-- The bank has an entry for each pixel that the guard lets a token write
(spec/40_rle24_decoder.md R94, R98). -/
theorem linearIndex_add_le_depth {s : State} (he : s.tokenEnabled = true) (hc : s.col < s.w.toNat)
    (hd : s.w.toNat * s.h.toNat ≤ s.cfg.pixbankDepth) {n : Nat} (hn : n ≤ s.remaining) :
    linearIndex s.w s.row s.col + n ≤ s.cfg.pixbankDepth := by
  have := linearIndex_add_remaining (tokenEnabled_iff.mp he).2.2 hc
  omega

/-- Settles O22: with too few colours and room in the bank, a literal can only come to its first short
colour. -/
theorem litCutShortFaults : Obligations.LitCutShortFaults := by
  intro m colours s he hc hd hfit hshort
  have hroom := linearIndex_add_le_depth he hc hd hfit
  rcases execLit_cases m colours s he with ⟨_, _⟩ | ⟨_, _, _⟩ | ⟨_, _, v, hv, h⟩ | ⟨_, _, _⟩
  · omega
  · omega
  · exact ⟨_, h, hv.faulted _ _ _ _⟩
  · omega

/-- At or beyond the stream's end nothing is fetched. -/
theorem fetch_eq_nil {s : State} (h : s.len ≤ s.cur) (c : Context) : s.fetch c = [] := by
  apply List.eq_nil_of_length_eq_zero
  rw [State.fetch, window_length]
  omega

/-- Settles O24: no control byte is fetched. -/
theorem missingControlByteFaults : Obligations.MissingControlByteFaults := by
  rintro s he ⟨ack, ha⟩ hm hend
  have hitem : runItem .token s = .next (s.faultEntry .truncatedStream s.cur 1 (s.len - s.cur)) := by
    unfold runItem
    rw [fetch_eq_nil hend]
    rfl
  refine ⟨s.faultEntry .truncatedStream s.cur 1 0, ?_, (SameOutsideOpen.refl s).faulted _ _ _ _⟩
  rw [step_running ha hm, runStep_token he, hitem, Nat.sub_eq_zero_of_le hend, mapNext_next]

/-! ## No fault of the model -/

section
variable {s : State} (he : s.tokenEnabled = true) (hc : s.col < s.w.toNat)
  (hd : s.w.toNat * s.h.toNat ≤ s.cfg.pixbankDepth)
include he hc hd

/-- A literal inside the image finds every bank entry it writes. -/
theorem execLit_ne_fault (m : BitVec 7) (cs : List Colour) (r : Fault) : execLit m cs s ≠ .fault r := by
  rcases execLit_cases m cs s he with ⟨_, h⟩ | ⟨_, _, t, h, _⟩ | ⟨_, _, v, _, h⟩ | ⟨hfit, _, h⟩
  · simp [h]
  · simp [h]
  · simp [h]
  · have := linearIndex_add_le_depth he hc hd hfit
    omega

/-- A run inside the image finds every bank entry it writes. -/
theorem execRun_ne_fault (m : BitVec 7) (c : Option Colour) (r : Fault) :
    execRun m c s ≠ .fault r := by
  rcases execRun_cases m c s he with ⟨_, h⟩ | ⟨_, _, _, t, h, _⟩ | ⟨_, _, v, _, h⟩ | ⟨hfit, _, h⟩
  · simp [h]
  · simp [h]
  · simp [h]
  · have := linearIndex_add_le_depth he hc hd hfit
    omega

/-- A TOKEN step inside the image does not fault in the model. -/
theorem runItem_token_ne_fault (r : Fault) : runItem .token s ≠ .fault r := by
  rcases runItem_token s with ⟨_, h⟩ | ⟨m, cs, h, _⟩ | ⟨m, c, h, _⟩ <;> rw [h]
  · simp
  · exact execLit_ne_fault he hc hd m cs r
  · exact execRun_ne_fault he hc hd m c r

end

/-- A HEADER step does not fault in the model: it writes no bank entry. -/
theorem runItem_header_ne_fault {s : State} (he : s.headerEnabled = true) (r : Fault) :
    runItem .header s ≠ .fault r := by
  obtain ⟨M, w, t, f, c, _, _, hr, _⟩ := runItem_header s
  rw [hr]
  rcases execHdr_cases M w t f c s he with ⟨_, _, h⟩ | ⟨_, _, h⟩ | ⟨_, v, _, _, _, _, _, _, h⟩ |
    ⟨_, wv, tv, fv, cv, _, _, _, _, _, _, _, ⟨_, h⟩ | ⟨_, h⟩⟩ <;> simp [h]

/-- The sequencer's step of a state whose scan position is inside the image does not fault in the model. -/
theorem runStep_ne_fault {s : State} (hs : s.ScanInv) (r : Fault) : runStep s ≠ .fault r := by
  rcases runStep_cases s with ⟨he, h⟩ | ⟨he, h⟩ | ⟨_, h⟩ | ⟨he, h⟩ | ⟨_, _, _, _, h⟩ <;> rw [h]
  · exact runItem_header_ne_fault he r
  · have hp := (tokenEnabled_iff.mp he).1
    exact runItem_token_ne_fault he (hs.column hp) (hs.capacity hp) r
  · nofun
  · obtain ⟨p, _, _, _, _, hnext⟩ := release_spec s he
    rw [hnext]
    nofun
  · nofun

/-- Settles O42: a step is RESET, refused for the signature, or the sequencer's. -/
theorem onlyCapacityStopsStep : Obligations.OnlyCapacityStopsStep := by
  intro s hi
  rcases hostNow_cases s with ⟨load, hl⟩ | ⟨ack, ha⟩
  · exact .inl ⟨_, step_resetting hl⟩
  cases hm : s.legalMagic with
  | false => exact .inr (.inr ⟨step_illegalMagic ha hm, rfl⟩)
  | true =>
    rw [step_running ha hm]
    cases h : runStep s with
    | next u => exact .inl ⟨u.tick, rfl⟩
    | fault r => exact absurd h (runStep_ne_fault hi.scan r)
    | refused r =>
      obtain ⟨rfl, he⟩ := runStep_refused h
      exact .inr (.inl ⟨rfl, he⟩)

/-! ## A whole payload -/

/-- While an image is decoded, the stream holds the tokens `is` at the cursor, the image has room for their
pixels and the bank for the image, and the host lets the block run. -/
structure State.HoldsTokens (s : State) (is : List Instr) : Prop where
  decoding : s.phase = .expectPayload ∧ s.rasterValid = false
  column   : s.col < s.w.toNat
  capacity : s.w.toNat * s.h.toNat ≤ s.cfg.pixbankDepth
  tokens   : ∀ i ∈ is, i.wellFormed = true ∧ i.context = .token
  room     : linearIndex s.w s.row s.col + (is.flatMap Instr.pixels).length ≤ s.w.toNat * s.h.toNat
  stream   : s.window s.cur (byteLengths is) = is.flatMap encode
  host     : s.neverResetting
  magic    : s.legalMagic = true

/-- The bytes of several tokens are those of the first and those of the others. -/
theorem byteLengths_cons (i : Instr) (is : List Instr) :
    byteLengths (i :: is) = i.byteLength + byteLengths is := rfl

/-- A whole item that stands at the cursor is the one the decoder finds (spec/30_encoding.md R79). -/
theorem decode_fetch_of_window {s : State} {i : Instr} (hw : i.wellFormed = true)
    (h : s.window s.cur i.byteLength = encode i) :
    ∃ rest, decode i.context (s.fetch i.context) = .ok (i, rest) := by
  have hlen : (s.window s.cur i.byteLength).length = i.byteLength := by rw [h, encode_length hw]
  have hfetch := window_add s s.cur i.byteLength (i.context.maxBytes - i.byteLength) hlen
  rw [Nat.add_sub_cancel' (byteLength_le_maxBytes i), h] at hfetch
  rw [State.fetch, hfetch]
  exact ⟨_, decode_encode hw _⟩

namespace State.HoldsTokens

variable {s t : State} {i : Instr} {is : List Instr}

/-- The stream holds the first token at the cursor and the others after it. -/
theorem window_cons (h : s.HoldsTokens (i :: is)) :
    s.window s.cur i.byteLength = encode i ∧
    s.window (s.cur + i.byteLength) (byteLengths is) = is.flatMap encode := by
  have hbytes := h.stream
  rw [List.flatMap_cons] at hbytes
  have hlen : (encode i).length = i.byteLength := encode_length (h.tokens i List.mem_cons_self).1
  have hfirst : s.window s.cur i.byteLength = encode i := hlen ▸ (window_of_append hbytes.symm).1
  rw [byteLengths_cons, window_add _ _ _ _ (by rw [hfirst, hlen]), hfirst] at hbytes
  exact ⟨hfirst, List.append_cancel_left hbytes⟩

/-- TOKEN is enabled and the first token fits: its pixels, of which there is one at least, lie in the image
(spec/40_rle24_decoder.md R94). -/
theorem first_fits (h : s.HoldsTokens (i :: is)) :
    s.tokenEnabled = true ∧ i.pixels.length ≤ s.remaining := by
  obtain ⟨hwhole, hcontext⟩ := h.tokens i List.mem_cons_self
  have hpos := pixels_pos hwhole hcontext
  have hroom := h.room
  rw [List.flatMap_cons, List.length_append] at hroom
  have hrow : s.row < s.h.toNat := by
    have : s.w.toNat * s.row < s.w.toNat * s.h.toNat := by
      rw [Nat.mul_comm s.w.toNat s.row]
      unfold linearIndex at hroom
      omega
    exact Nat.lt_of_mul_lt_mul_left this
  have := linearIndex_add_remaining hrow h.column
  exact ⟨tokenEnabled_iff.mpr ⟨h.decoding.1, h.decoding.2, hrow⟩, by omega⟩

/-- The next step runs the first token. -/
theorem step_first (h : s.HoldsTokens (i :: is)) :
    ∃ t, step s = .next t.tick ∧ Written s t i.pixels i.byteLength := by
  obtain ⟨hwhole, hcontext⟩ := h.tokens i List.mem_cons_self
  obtain ⟨he, hfit⟩ := h.first_fits
  obtain ⟨t, ht, hw⟩ := exec_wholeToken hwhole hcontext he h.column h.capacity hfit
  obtain ⟨rest, hdec⟩ := decode_fetch_of_window hwhole h.window_cons.1
  rw [hcontext] at hdec
  have hstep := stepRunsDecodedItem s .token i rest (.inr ⟨rfl, he⟩) (neverResetting_now h.host) h.magic
    (.inl hdec)
  exact ⟨t, by rw [hstep, ht, mapNext_next], hw⟩

/-- After the first token the stream holds the others. -/
theorem rest (h : s.HoldsTokens (i :: is)) (hw : Written s t i.pixels i.byteLength) :
    t.tick.HoldsTokens is := by
  have hindex := hw.index
  have hcolumn := hw.column h.column
  have hroom := h.room
  rw [List.flatMap_cons, List.length_append] at hroom
  have hstream := h.window_cons.2
  have hframe := hw.frame
  have hbyte : ∀ a, t.byteAt a = s.byteAt a := by
    rw [hframe]
    exact byteAt_congr rfl rfl
  rw [← window_congr (t := t.tick) _ _ fun _ _ => hbyte _] at hstream
  rw [hframe] at hstream ⊢
  exact {
    decoding := h.decoding
    column := hcolumn
    capacity := h.capacity
    tokens := fun j hj => h.tokens j (List.mem_cons_of_mem i hj)
    room := show linearIndex s.w t.row t.col + _ ≤ s.w.toNat * s.h.toNat by omega
    stream := hstream
    host := neverResetting_tail h.host rfl
    magic := h.magic }

/-- The tokens are run one a step, and write their pixels one after the other; each step takes one of the
host's samples (spec/40_rle24_decoder.md R102, R103). -/
theorem runSteps_eq (h : s.HoldsTokens is) :
    ∃ t, runSteps is.length s = .next { t with host := s.host.drop is.length } ∧
      Written s t (is.flatMap Instr.pixels) (byteLengths is) := by
  induction is generalizing s with
  | nil => exact ⟨s, rfl, Written.zero s⟩
  | cons i is ih =>
    obtain ⟨t, hstep, hfirst⟩ := h.step_first
    obtain ⟨u, hrun, hothers⟩ := ih (h.rest hfirst)
    have hothers : Written t { u with host := t.host } (is.flatMap Instr.pixels) (byteLengths is) :=
      hothers.withHost t.host
    have hhost : t.tick.host.drop is.length = s.host.drop (i :: is).length := by
      rw [State.tick_host, hfirst.frame, List.drop_tail, List.length_cons]
    refine ⟨{ u with host := t.host }, ?_, ?_⟩
    · show bindNext (step s) (runSteps is.length) = _
      rw [hstep, ← hhost]
      exact hrun
    · rw [List.flatMap_cons, byteLengths_cons]
      exact hfirst.append hothers

end State.HoldsTokens

/-- Settles O47: from the image's first position, pixels as many as the image has end at row `h`, column 0. -/
theorem payloadDecodesToItsPixels : Obligations.PayloadDecodesToItsPixels := by
  intro is s hp hr hrow hcol hwidth _ hcap hhost hmagic htokens hcount hstream
  have hzero : linearIndex s.w s.row s.col = 0 := by simp [linearIndex, hrow, hcol]
  have hcolumn : s.col < s.w.toNat := hcol ▸ hwidth
  have hholds : s.HoldsTokens is :=
    ⟨⟨hp, hr⟩, hcolumn, hcap, htokens, by omega, hstream, hhost, hmagic⟩
  obtain ⟨t, hrun, hw⟩ := hholds.runSteps_eq
  have hstate := hw.state_eq hcolumn
  have hpixel := hw.pixel
  simp only [hzero, hcount, Nat.zero_add, Nat.mul_div_cancel_left _ hwidth, Nat.mul_mod_right]
    at hstate hpixel
  exact ⟨t.bank, by rw [hrun, hstate], hpixel⟩

end Sys2Proof.Machine
end

section
/-!
# The container reader

The boundary arithmetic (spec/41_container_reader.md R125, R126), the header's checks in their order
(spec/41_container_reader.md R121 to R124), the hand-over of a raster and its release
(spec/41_container_reader.md R128 to R131), the edges of the state machine (spec/41_container_reader.md R134),
a whole record (spec/41_container_reader.md R120, R137), and that every run ends (spec/41_container_reader.md
R136).
-/

namespace Sys2Proof.Machine

/-! ## The boundary arithmetic -/

/-- Settles O26: the quotient is rounded up by adding one less than a block. -/
theorem alignIsLeastBlockMultiple : Obligations.AlignIsLeastBlockMultiple := by
  intro e
  have hformula : alignBlock e = (e + 511) / 512 * 512 := rfl
  have hmultiple : alignBlock e % 512 = 0 := Nat.mul_mod_left _ _
  obtain ⟨hlo, hhi⟩ := alignBlock_bounds e
  refine ⟨hformula, hmultiple, hlo, hhi, fun p hp hpm => by omega, ?_⟩
  split
  · omega
  · omega

/-- Settles O27: a 32-bit count times 512 fits 41 bits. -/
theorem payloadLengthIsExact : Obligations.PayloadLengthIsExact := by
  refine ⟨fun c => ⟨rfl, ?_, payloadLength_lt c⟩, rfl, rfl, fun _ _ => rfl⟩
  exact Nat.mul_le_mul_right 512 (Nat.le_pred_of_lt c.isLt)

/-! ## The signature and the fields -/

/-- Settles O29: SEQ alone tells UnsupportedFile from Done. -/
theorem signatureMismatchEndsRun : Obligations.SignatureMismatchEndsRun := by
  intro s M w t f c he hM
  have hexec : exec (.hdr M w t f c) s = _ := execHdr_mismatch s w t f c he hM
  rw [hexec]
  by_cases h0 : s.seq = 0
  · rw [if_pos h0]
    exact ⟨_, rfl, rfl, rfl, rfl, fun _ => ⟨rfl, rfl, rfl, rfl, rfl⟩, fun h => absurd h0 h⟩
  · rw [if_neg h0]
    exact ⟨_, rfl, rfl, rfl, rfl, fun h => absurd h h0, fun _ => ⟨rfl, rfl, rfl, rfl, rfl⟩⟩

/-- After a matching signature the fields are read from the ninth byte on (spec/41_container_reader.md
R121). -/
theorem execHdr_matching {s : State} (w t f c : Option Word) (he : s.headerEnabled = true) :
    execHdr (magicBytes s.cfg) w t f c s =
      ((readFields w t f c (s.advance 8)).andThen fun u =>
        (validate s.cur u).andThen fun v => .go (bounds s.cur v)).outcome := by
  unfold execHdr sigcheck
  rw [if_pos he, if_pos rfl]
  rfl

/-- Where reading the fields ends at a short one, `k` bytes into the record, the header faults there
(spec/60_exceptions.md R163). -/
theorem exec_hdr_shortField {s v : State} {w t f c : Option Word} {k : Nat}
    (he : s.headerEnabled = true) (hread : readFields w t f c (s.advance 8) = raiseTruncated 4 v)
    (hopen : SameOutsideOpen s v) (hcur : v.cur = s.cur + k) :
    ∃ u, exec (.hdr (magicBytes s.cfg) w t f c) s = .next u ∧
      Faulted s u .truncatedStream (s.cur + k) 4 (s.len - (s.cur + k)) := by
  have hlen : v.len = s.len := by rw [hopen]
  have hexec := execHdr_matching w t f c he
  rw [hread, raiseTruncated, State.left, hcur, hlen] at hexec
  exact ⟨_, hexec, hopen.faulted _ _ _ _⟩

/-- Settles O31: each field read moves the cursor by four and is looked at no further. -/
theorem shortFieldFaults : Obligations.ShortFieldFaults := by
  intro s w t f x y z he
  exact ⟨exec_hdr_shortField (v := s.advance 8) he rfl rfl rfl,
    exec_hdr_shortField (v := { s.advance 12 with w := w }) he rfl rfl rfl,
    exec_hdr_shortField (v := { s.advance 16 with w := w, h := t }) he rfl rfl rfl,
    exec_hdr_shortField (v := { s.advance 20 with w := w, h := t, flag := f }) he rfl rfl rfl⟩

/-! ## The checks of a whole header -/

section
variable {s : State} {p : Nat}

/-- The flag is checked first (spec/60_exceptions.md R162, R169). -/
theorem validate_invalidFlag (hflag : s.flag ≠ s.cfg.encSentinel) :
    validate p s =
      raise .invalidEncodingFlag (p + 16) s.cfg.encSentinel.toNat s.flag.toNat s :=
  if_pos hflag

variable (hflag : s.flag = s.cfg.encSentinel)
include hflag

/-- ... then the dimensions (spec/60_exceptions.md R166, R169). -/
theorem validate_invalidDimensions (hzero : s.w = 0 ∨ s.h = 0) :
    validate p s =
      raise .invalidDimensions (p + 8) 1 (s.w.toNat + 2 ^ 32 * s.h.toNat) s := by
  unfold validate
  rw [if_neg (not_not.mpr hflag), if_pos hzero]

variable (hw : s.w ≠ 0) (hh : s.h ≠ 0)
include hw hh

/-- ... then the capacity (spec/41_container_reader.md R124). -/
theorem validate_overCapacity (hover : s.w.toNat * s.h.toNat > s.cfg.pixbankDepth) :
    validate p s = .ended (.refused .rasterTooLarge) := by
  unfold validate
  rw [if_neg (not_not.mpr hflag), if_neg (not_or.mpr ⟨hw, hh⟩), if_pos hover]

/-- ... and a header that passes them all goes on to BOUNDS. -/
theorem validate_legal (hfit : s.w.toNat * s.h.toNat ≤ s.cfg.pixbankDepth) : validate p s = .go s := by
  unfold validate
  rw [if_neg (not_not.mpr hflag), if_neg (not_or.mpr ⟨hw, hh⟩), if_neg (Nat.not_lt.mpr hfit)]

end

/-- Where a check of the whole header ends the step, that is the header's outcome. -/
theorem exec_hdr_of_validate_ended {s : State} {w t f c : Word} {o : StepOutcome}
    (he : s.headerEnabled = true) (h : validate s.cur (s.latch w t f c) = .ended o) :
    exec (.hdr (magicBytes s.cfg) (some w) (some t) (some f) (some c)) s = o := by
  have hexec := execHdr_whole s w t f c he
  rwa [h] at hexec

/-- Settles O32: VALIDATE looks at the latches, with nothing but them and the cursor changed. -/
theorem headerChecksInOrder : Obligations.HeaderChecksInOrder := by
  intro s w t f c he
  have hopen : SameOutsideOpen s (s.latch w t f c) := rfl
  refine ⟨fun hf => ?_, fun hf hzero => ?_, fun hf hw ht hover => ?_⟩
  · exact ⟨_, exec_hdr_of_validate_ended he (validate_invalidFlag (s := s.latch w t f c) hf),
      hopen.faulted _ _ _ _⟩
  · exact ⟨_, exec_hdr_of_validate_ended he
      (validate_invalidDimensions (s := s.latch w t f c) hf hzero), hopen.faulted _ _ _ _⟩
  · exact exec_hdr_of_validate_ended he (validate_overCapacity (s := s.latch w t f c) hf hw ht hover)

/-- A word of a positive number is not zero. -/
theorem ne_zero_of_one_le_toNat {v : Word} (h : 1 ≤ v.toNat) : v ≠ 0 := by
  rintro rfl
  cases h

/-- A header that passes the checks goes on to BOUNDS over its latches (spec/41_container_reader.md R127). -/
theorem exec_hdr_legal {s : State} {w t : Word} (c : Word) (he : s.headerEnabled = true)
    (hw : 1 ≤ w.toNat) (ht : 1 ≤ t.toNat) (hfit : w.toNat * t.toNat ≤ s.cfg.pixbankDepth) :
    exec (.hdr (magicBytes s.cfg) (some w) (some t) (some s.cfg.encSentinel) (some c)) s =
      .next (bounds s.cur (s.latch w t s.cfg.encSentinel c)) := by
  have hlegal := validate_legal (s := s.latch w t s.cfg.encSentinel c) (p := s.cur) rfl
    (ne_zero_of_one_le_toNat hw) (ne_zero_of_one_le_toNat ht) hfit
  have hexec := execHdr_whole s w t s.cfg.encSentinel c he
  rwa [hlegal] at hexec

/-- Settles O28: BOUNDS over the latches is the state asked for, with no bank entry written. -/
theorem hdrCompletes : Obligations.HdrCompletes :=
  fun _ _ _ c he hw ht hfit => ⟨[], exec_hdr_legal c he hw ht hfit⟩

/-! ## Hand-over and release -/

/-- Where FINISH is enabled it is the step (spec/10_state.md R20). -/
theorem step_finish {s : State} (h : s.finishEnabled = true) (hr : s.notResetting)
    (hm : s.legalMagic = true) : step s = .next s.finish.tick := by
  obtain ⟨ack, ha⟩ := hr
  rw [step_running ha hm, runStep_finish h, mapNext_next]

/-- The linear index of a pixel of the image is below the number of its pixels (spec/20_memory.md R60). -/
theorem linearIndex_lt {w h : Word} {r c : Nat} (hr : r < h.toNat) (hc : c < w.toNat) :
    linearIndex w r c < w.toNat * h.toNat :=
  calc r * w.toNat + c < (r + 1) * w.toNat := by rw [Nat.succ_mul]; omega
    _ ≤ h.toNat * w.toNat := Nat.mul_le_mul_right _ hr
    _ = w.toNat * h.toNat := Nat.mul_comm _ _

/-- The raster that FINISH yields has the bank's entry for each pixel of the image
(spec/42_host_interface.md R152). -/
theorem yieldedPixel_raster {s : State} {r c : Nat} (hr : r < s.h.toNat) (hc : c < s.w.toNat) :
    yieldedPixel s.raster r c = bankEntry s.bank (linearIndex s.w r c) := by
  have hlookup := lookupCell_filter (fun k => decide (k < s.w.toNat * s.h.toNat))
    (linearIndex s.w r c) s.bank
  rw [if_pos (decide_eq_true (linearIndex_lt hr hc))] at hlookup
  exact (if_pos ⟨hr, hc⟩).trans hlookup

/-- Settles O35: the entries in use are those of the image's pixels. -/
theorem finishYieldsRaster : Obligations.FinishYieldsRaster :=
  fun s h hr hm => ⟨s.raster, step_finish h hr hm, rfl, rfl, rfl, fun _ _ => yieldedPixel_raster⟩

/-- Settles O14: the skip ends at the first position that holds no zero byte, and RELEASE closes there. -/
theorem releaseSkipsToFirstNonZero : Obligations.ReleaseSkipsToFirstNonZero := by
  intro s h hm
  obtain ⟨p, hp, _, hzero, hstop, hrelease⟩ := release_spec s h
  exact ⟨p, hp, hzero, hstop, by rw [step_release h hm, hrelease]; rfl⟩

/-- Settles O51: the signature's first byte is no zero byte, and every position before it holds one. -/
theorem signatureSurvivesZeroSkip : Obligations.SignatureSurvivesZeroSkip := by
  intro s a h hm ha hpadding hsignature
  obtain ⟨p, hp, hzero, hstop, hstep⟩ := releaseSkipsToFirstNonZero s h hm
  have hfirst : s.byteAt a ≠ some 0x00 := by
    rw [← window_head? s a 7, hsignature]
    exact (legalMagic_iff_head? s).mp hm
  obtain rfl : p = a := by
    rcases Nat.lt_trichotomy p a with hlt | heq | hgt
    · exact absurd (hpadding p hp hlt) hstop
    · exact heq
    · exact absurd (hzero a ha hgt) hfirst
  refine ⟨_, hstep, rfl, rfl, ?_⟩
  rw [← hsignature]
  exact window_congr _ _ fun _ _ => rfl

/-! ## The edges of the state machine -/

/-- A step that gives a next state without RESET is a move and the host's next sample. -/
theorem moves_of_step {s t : State} (hr : s.notResetting) (h : step s = .next t) :
    ∃ u, Moves s u ∧ t = u.tick := by
  obtain ⟨ack, ha⟩ := hr
  rcases step_cases h with ⟨load, hl, _⟩ | ⟨_, _, hmove⟩
  · cases ha.symm.trans hl
  · exact hmove

/-- Where each of the four steps leads, and that STATE stays where none is enabled
(spec/41_container_reader.md R134). -/
theorem moves_phase {s u : State} (h : Moves s u) :
    (s.headerEnabled = true ∧ (u.phase = .expectPayload ∨ u.phase = .formatError ∨
      (u.phase = .unsupportedFile ∧ s.seq = 0) ∨ (u.phase = .done ∧ s.seq ≠ 0))) ∨
    (s.tokenEnabled = true ∧ (u.phase = .expectPayload ∨ u.phase = .formatError)) ∨
    (s.finishEnabled = true ∧ u.phase = .expectPayload) ∨
    (s.releaseEnabled = true ∧ u.phase = .expectHeader) ∨
    (s.headerEnabled = false ∧ u.phase = s.phase) := by
  cases h with
  | unsupported M he h0 => exact .inl ⟨he, .inr (.inr (.inl ⟨rfl, h0⟩))⟩
  | done he h0 => exact .inl ⟨he, .inr (.inr (.inr ⟨rfl, h0⟩))⟩
  | headerFault v c pos exp found he => exact .inl ⟨he, .inr (.inl rfl)⟩
  | header w t f c he => exact .inl ⟨he, .inl rfl⟩
  | tokenFault v c pos exp found he => exact .inr (.inl ⟨he, .inr rfl⟩)
  | token _ ps k he _ _ hw =>
    rw [hw.frame]
    exact .inr (.inl ⟨he, .inl (tokenEnabled_iff.mp he).1⟩)
  | finish he => exact .inr (.inr (.inl ⟨he, (finishEnabled_iff.mp he).1⟩))
  | release p he => exact .inr (.inr (.inr (.inl ⟨he, rfl⟩)))
  | idle he => exact .inr (.inr (.inr (.inr ⟨he, rfl⟩)))

/-- Settles O40: the step that is enabled tells the state it starts from. -/
theorem onlyTableTransitions : Obligations.OnlyTableTransitions := by
  intro s t _ hr hstep
  obtain ⟨u, hmove, rfl⟩ := moves_of_step hr hstep
  rw [State.tick_phase]
  rcases moves_phase hmove with ⟨he, hu⟩ | ⟨he, hu⟩ | ⟨he, hu⟩ | ⟨he, hu⟩ | ⟨he, hu⟩
  · rw [headerEnabled_iff.mp he]
    exact ⟨fun _ => hu, nofun, nofun⟩
  · rw [(tokenEnabled_iff.mp he).1]
    exact ⟨nofun, fun _ => hu.imp id fun hf => .inl ⟨hf, he⟩, nofun⟩
  · rw [(finishEnabled_iff.mp he).1]
    exact ⟨nofun, fun _ => .inl hu, nofun⟩
  · rw [(releaseEnabled_iff.mp he).1]
    exact ⟨nofun, fun _ => .inr (.inr ⟨hu, he⟩), nofun⟩
  · refine ⟨fun hp => ?_, fun hp => .inl (hu.trans hp), fun _ => hu⟩
    rw [headerEnabled_iff.mpr hp] at he
    cases he

/-! ## A whole record -/

/-- One step and then the others. -/
theorem runSteps_succ {s t : State} (h : step s = .next t) (n : Nat) :
    runSteps (n + 1) s = runSteps n t := by
  rw [runSteps, h]
  rfl

/-- Some steps and then one more. -/
theorem runSteps_succ_last {s t : State} {n : Nat} (h : runSteps n s = .next t) :
    runSteps (n + 1) s = step t := by
  rw [runSteps_add, h]
  show bindNext (step t) .next = step t
  cases step t <;> rfl

/-- A valid header record at the cursor is run (spec/41_container_reader.md R121). -/
theorem step_validHeader {s : State} {w t c : Word} (he : s.headerEnabled = true)
    (hr : s.notResetting) (hm : s.legalMagic = true) (hw : 1 ≤ w.toNat) (ht : 1 ≤ t.toNat)
    (hfit : w.toNat * t.toNat ≤ s.cfg.pixbankDepth)
    (hrecord : s.window s.cur 24 =
      encode (.hdr (magicBytes s.cfg) (some w) (some t) (some s.cfg.encSentinel) (some c))) :
    step s = .next (bounds s.cur (s.latch w t s.cfg.encSentinel c)).tick := by
  have hwhole : (Instr.hdr (magicBytes s.cfg) (some w) (some t) (some s.cfg.encSentinel)
      (some c)).wellFormed = true := by
    simp [Instr.wellFormed, WellFormed.signature, WellFormed.fields, magicBytes]
  obtain ⟨rest, hdecode⟩ := decode_fetch_of_window hwhole hrecord
  rw [stepRunsDecodedItem s .header _ rest (.inl ⟨rfl, he⟩) hr hm (.inl hdecode),
    exec_hdr_legal c he hw ht hfit, mapNext_next]

/-- Settles O48: the HEADER step, one TOKEN step for each token, and FINISH. -/
theorem recordYieldsItsRaster : Obligations.RecordYieldsItsRaster := by
  intro is s w t c he hvalid hhost hm hw ht hfit htokens hcount hrecord hpayload
  have hheader := step_validHeader he (neverResetting_now hhost) hm hw ht hfit hrecord
  have hhost' : (bounds s.cur (s.latch w t s.cfg.encSentinel c)).tick.neverResetting :=
    neverResetting_tail hhost rfl
  have hpayload' : (bounds s.cur (s.latch w t s.cfg.encSentinel c)).tick.window
      (alignBlock (s.cur + 24)) (byteLengths is) = is.flatMap encode := by
    rw [← hpayload]
    exact window_congr _ _ fun _ _ => rfl
  obtain ⟨b, hrun, hpixels⟩ := payloadDecodesToItsPixels is
    (bounds s.cur (s.latch w t s.cfg.encSentinel c)).tick rfl hvalid rfl rfl hw ht hfit hhost' hm
    htokens hcount hpayload'
  have hlast := (runSteps_succ_last hrun).trans (step_finish (finishEnabled_iff.mpr ⟨rfl, hvalid, rfl⟩)
    (neverResetting_now fun x hx => hhost' x (List.mem_of_mem_drop hx)) hm)
  exact ⟨_, _, (runSteps_succ hheader _).trans hlast, rfl, rfl, rfl, rfl, rfl, rfl, rfl,
    fun r k hrow hcol =>
      (yieldedPixel_raster hrow hcol).trans (hpixels _ (linearIndex_lt hrow hcol))⟩

/-! ## Every run ends -/

/-- The stream bytes behind the position of the record in work: of its header before it is read, of its
payload after that. -/
def State.streamAhead (s : State) : Nat :=
  s.len - if s.phase = .expectPayload then s.pstart else s.cur

/-- What is left to do with the record in work: its pixels, the hand-over and the release, and the host's
samples, of which each wait uses one up. -/
def State.workLeft (s : State) : Nat :=
  s.host.length +
    if s.phase = .expectPayload then if s.rasterValid then 1 else 2 + s.remaining else 0

/-- `t` is nearer to the end of the run than `s`: it has less of the stream ahead, or as much and less work
left (spec/41_container_reader.md R136). -/
def State.Nearer (t s : State) : Prop :=
  t.streamAhead < s.streamAhead ∨ (t.streamAhead ≤ s.streamAhead ∧ t.workLeft < s.workLeft)

section
variable {s : State} (hp : s.phase = .expectPayload)
include hp

theorem streamAhead_payload : s.streamAhead = s.len - s.pstart := by
  rw [State.streamAhead, if_pos hp]

theorem workLeft_decoding (hr : s.rasterValid = false) :
    s.workLeft = s.host.length + (2 + s.remaining) := by
  rw [State.workLeft, if_pos hp, hr]
  rfl

theorem workLeft_handedOver (hr : s.rasterValid = true) : s.workLeft = s.host.length + 1 := by
  rw [State.workLeft, if_pos hp, if_pos hr]

end

section
variable {s : State} (hp : s.phase ≠ .expectPayload)
include hp

theorem streamAhead_noPayload : s.streamAhead = s.len - s.cur := by
  rw [State.streamAhead, if_neg hp]

theorem workLeft_noPayload : s.workLeft = s.host.length := by
  rw [State.workLeft, if_neg hp, Nat.add_zero]

end

/-- The next step has at most as many samples to come. -/
theorem workLeft_tick_le (s : State) : s.tick.workLeft ≤ s.workLeft := by
  have : s.tick.host.length ≤ s.host.length := by rw [State.tick_host, List.length_tail]; omega
  exact Nat.add_le_add_right this _

/-- The host's next sample takes nothing back. -/
theorem State.Nearer.tick {s t : State} (h : t.Nearer s) : t.tick.Nearer s :=
  h.imp id fun ⟨hahead, hwork⟩ => ⟨hahead, (workLeft_tick_le t).trans_lt hwork⟩

/-- A header leads behind its 24 bytes (spec/41_container_reader.md R126, R127). -/
theorem nearer_header {s : State} (hp : s.phase = .expectHeader) (hlen : s.cur + 24 ≤ s.len)
    (w t f c : Word) : (bounds s.cur (s.latch w t f c)).Nearer s := by
  have hstart := (alignBlock_bounds (s.cur + 24)).1
  left
  rw [streamAhead_payload (s := bounds _ _) rfl, streamAhead_noPayload (by rw [hp]; nofun)]
  show s.len - alignBlock (s.cur + 24) < s.len - s.cur
  omega

/-- A token leaves fewer pixels to write (spec/40_rle24_decoder.md R93, R94). -/
theorem Written.remaining_lt {s t : State} {ps : List Pixel} {k : Nat} (h : Written s t ps k)
    (hrow : s.row < s.h.toNat) (hcol : s.col < s.w.toNat)
    (hps : 1 ≤ ps.length ∧ ps.length ≤ s.remaining) : t.remaining < s.remaining := by
  have hs := linearIndex_add_remaining hrow hcol
  have hw : t.w = s.w := by rw [h.frame]
  have hh : t.h = s.h := by rw [h.frame]
  have hbound := (h.rowBound hcol (by omega)).1
  rcases Nat.lt_or_eq_of_le hbound with hlt | heq
  · have ht := linearIndex_add_remaining (s := t) (by rwa [hh]) (by rw [hw]; exact h.column hcol)
    rw [hw, hh, h.index] at ht
    omega
  · have ht : t.remaining = 0 := by simp [State.remaining, hh, heq]
    omega

/-- A token does part of the work (spec/40_rle24_decoder.md R102). -/
theorem nearer_token {s t : State} {ps : List Pixel} {k : Nat} (hs : s.ScanInv)
    (he : s.tokenEnabled = true) (hps : 1 ≤ ps.length ∧ ps.length ≤ s.remaining)
    (hw : Written s t ps k) : t.Nearer s := by
  obtain ⟨hp, hr, hrow⟩ := tokenEnabled_iff.mp he
  have hrem := hw.remaining_lt hrow (hs.column hp) hps
  have hpt : t.phase = .expectPayload := by rw [hw.frame, hp]
  have hrt : t.rasterValid = false := by rw [hw.frame, hr]
  have hahead : t.len - t.pstart = s.len - s.pstart := by rw [hw.frame]
  have hhost : t.host = s.host := by rw [hw.frame]
  right
  rw [streamAhead_payload hpt, streamAhead_payload hp, workLeft_decoding hpt hrt,
    workLeft_decoding hp hr, hahead, hhost]
  omega

/-- FINISH leaves the raster to be released (spec/41_container_reader.md R128). -/
theorem nearer_finish {s : State} (he : s.finishEnabled = true) : s.finish.Nearer s := by
  obtain ⟨hp, hr, _⟩ := finishEnabled_iff.mp he
  right
  rw [streamAhead_payload (s := s.finish) hp, streamAhead_payload hp,
    workLeft_handedOver (s := s.finish) hp rfl, workLeft_decoding hp hr, State.finish_host]
  exact ⟨le_refl _, by omega⟩

/-- RELEASE ends the work at or behind the payload's start (spec/41_container_reader.md R130). -/
theorem nearer_release {s : State} (hi : s.Inv) (he : s.releaseEnabled = true) {p : Nat}
    (hcur : s.cur ≤ p) :
    { s with cur := p, rasterValid := false, phase := .expectHeader }.Nearer s := by
  obtain ⟨hp, hr, _⟩ := releaseEnabled_iff.mp he
  have hseek := hi.handOver.seek hr
  have hend := hi.boundary.window hp
  right
  rw [streamAhead_noPayload (s := { s with cur := p, rasterValid := false, phase := .expectHeader })
      nofun, streamAhead_payload hp,
    workLeft_noPayload (s := { s with cur := p, rasterValid := false, phase := .expectHeader }) nofun,
    workLeft_handedOver hp hr]
  exact ⟨show s.len - p ≤ s.len - s.pstart by omega, Nat.lt_succ_self _⟩

/-- A host that does not acknowledge has a sample that says so. -/
theorem host_ne_nil_of_hostNow {s : State} (h : s.hostNow ≠ .running true) : s.host ≠ [] := by
  intro e
  rw [State.hostNow, e] at h
  exact h rfl

/-- Where no step is enabled before the end of a run, the block waits for the host, whose samples get fewer
(spec/10_state.md R29, spec/42_host_interface.md R153). -/
theorem nearer_idle {s : State} (hs : s.ScanInv) (hrun : s.phase.terminal = false)
    (h1 : s.headerEnabled = false) (h2 : s.tokenEnabled = false) (h3 : s.finishEnabled = false)
    (h4 : s.releaseEnabled = false) : s.tick.Nearer s := by
  have hp : s.phase = .expectPayload := by
    cases hphase : s.phase with
    | expectHeader => rw [headerEnabled_iff.mpr hphase] at h1; cases h1
    | expectPayload => rfl
    | _ => rw [hphase] at hrun; cases hrun
  have hr : s.rasterValid = true := by
    by_contra hne
    have hr := Bool.eq_false_of_not_eq_true hne
    rcases Nat.lt_or_eq_of_le (hs.row hp) with hlt | heq
    · rw [tokenEnabled_iff.mpr ⟨hp, hr, hlt⟩] at h2; cases h2
    · rw [finishEnabled_iff.mpr ⟨hp, hr, heq⟩] at h3; cases h3
  have hhost : s.host ≠ [] := host_ne_nil_of_hostNow fun hack => by
    rw [releaseEnabled_iff.mpr ⟨hp, hr, hack⟩] at h4
    cases h4
  have hpos := List.length_pos_of_ne_nil hhost
  right
  rw [workLeft_handedOver (s := s.tick) hp hr, workLeft_handedOver hp hr, State.tick_host,
    List.length_tail]
  exact ⟨le_refl _, by omega⟩

/-- Every move before the end of a run ends it, or leads nearer to its end. -/
theorem moves_nearer {s u : State} (hi : s.Inv) (hrun : s.phase.terminal = false) (h : Moves s u) :
    u.phase.terminal = true ∨ u.tick.Nearer s := by
  cases h with
  | unsupported M he => exact .inl rfl
  | done he => exact .inl rfl
  | headerFault v c pos exp found he => exact .inl rfl
  | tokenFault v c pos exp found he => exact .inl rfl
  | header w t f c he hlen => exact .inr (nearer_header (headerEnabled_iff.mp he) hlen w t f c).tick
  | token _ ps k he hps _ hw => exact .inr (nearer_token hi.scan he hps hw).tick
  | finish he => exact .inr (nearer_finish he).tick
  | release p he hcur => exact .inr (nearer_release hi he hcur).tick
  | idle h1 h2 h3 h4 => exact .inr (nearer_idle hi.scan hrun h1 h2 h3 h4)

/-- Some number of steps from `s` reaches a terminal state, or a header over the bank's capacity
(spec/41_container_reader.md R124, R136). -/
def State.RunEnds (s : State) : Prop :=
  ∃ n, (∃ t, runSteps n s = .next t ∧ t.phase.terminal = true) ∨
    runSteps n s = .refused .rasterTooLarge

/-- A run that ends after a step ends. -/
theorem State.RunEnds.of_step {s t : State} (h : step s = .next t) (ht : t.RunEnds) : s.RunEnds := by
  obtain ⟨n, hn⟩ := ht
  exact ⟨n + 1, by rwa [runSteps_succ h]⟩

/-- A run in a terminal state has ended. -/
theorem State.RunEnds.of_terminal {s : State} (h : s.phase.terminal = true) : s.RunEnds :=
  ⟨0, .inl ⟨s, rfl, h⟩⟩

/-- Each step ends the run, or leads nearer to its end in the lexicographic order of the stream ahead and the
work left. -/
theorem runEnds_of_inv (s : State) (hi : s.Inv) (hhost : s.neverResetting)
    (hm : s.legalMagic = true) : s.RunEnds := by
  cases hrun : s.phase.terminal with
  | true => exact .of_terminal hrun
  | false =>
    rcases onlyCapacityStopsStep s hi with ⟨t, hstep⟩ | ⟨hstep, _⟩ | ⟨_, hbad⟩
    · obtain ⟨u, hmove, rfl⟩ := moves_of_step (neverResetting_now hhost) hstep
      rcases moves_nearer hi hrun hmove with hend | hnearer
      · exact .of_step hstep (.of_terminal hend)
      · exact .of_step hstep (runEnds_of_inv u.tick (stepKeepsInvariant s _ hi hstep)
          (neverResetting_tail hhost (by rw [State.tick_host, moves_host hmove]))
          ((legalMagic_congr (moves_cfg hmove)).trans hm))
    · exact ⟨1, .inr (by rw [runSteps, hstep]; rfl)⟩
    · rw [hm] at hbad
      cases hbad
termination_by (s.streamAhead, s.workLeft)
decreasing_by
  rcases hnearer with hlt | ⟨hle, hlt⟩
  · exact .left _ _ hlt
  · exact .right' _ hle hlt

/-- Settles O49: by the measure of `State.Nearer`, over the states that meet the invariant. -/
theorem runReachesTerminalState : Obligations.RunReachesTerminalState :=
  runEnds_of_inv

end Sys2Proof.Machine
end

section
/-!
# The host's acknowledge

Only RELEASE asks for the acknowledge (spec/41_container_reader.md R130): without a raster in the host's hands
the level of RASTER_ACK does not matter (spec/42_host_interface.md R153, spec/60_exceptions.md R170).
-/

namespace Sys2Proof.Machine

/-- Which bytes the block fetches does not depend on the host's samples (spec/20_memory.md R51). -/
theorem fetch_withHost (c : Context) (hs : List HostSample) (s : State) :
    (s.withInputs s.mem hs).fetch c = s.fetch c :=
  window_congr s.cur c.maxBytes fun _ _ => rfl

/-- A HEADER or TOKEN step runs the same item under other host samples (spec/30_encoding.md R79). -/
theorem runItem_withHost {c : Context} (hc : c ≠ .pad) (hs : List HostSample) (s : State) :
    runItem c (s.withInputs s.mem hs) = mapNext (State.withInputs s.mem hs) (runItem c s) := by
  unfold runItem
  rw [fetch_withHost]
  cases hdec : decode c (s.fetch c) with
  | ok r => exact exec_withInputs r.1 (by rw [(encode_of_decode hdec).2.1]; exact hc) s
  | error e =>
    cases e with
    | cutShort i left => exact exec_withInputs i (by rw [(encode_of_cutShort hdec).2.1]; exact hc) s
    | noControlByte => rfl
    | notPadding b => rfl
    | endOfStream => rfl

/-- Without a raster in the host's hands RELEASE is not enabled, whatever the host drives
(spec/41_container_reader.md R130). -/
theorem releaseEnabled_noRaster {s : State} (hr : s.rasterValid = false) : s.releaseEnabled = false :=
  Bool.eq_false_of_not_eq_true fun he => by
    obtain ⟨_, hraster, _⟩ := releaseEnabled_iff.mp he
    rw [hr] at hraster
    cases hraster

/-- Without a raster in the host's hands the sequencer does the same under other host samples. -/
theorem runStep_withHost {s : State} (hr : s.rasterValid = false) (hs : List HostSample) :
    runStep (s.withInputs s.mem hs) = mapNext (State.withInputs s.mem hs) (runStep s) := by
  rcases runStep_cases s with ⟨he, h⟩ | ⟨he, h⟩ | ⟨he, h⟩ | ⟨he, _⟩ | ⟨h1, h2, h3, _, h⟩
  · rw [h, runStep_header (s := s.withInputs s.mem hs) he]; exact runItem_withHost (by decide) hs s
  · rw [h, runStep_token (s := s.withInputs s.mem hs) he]; exact runItem_withHost (by decide) hs s
  · rw [h, runStep_finish (s := s.withInputs s.mem hs) he]; rfl
  · rw [releaseEnabled_noRaster hr] at he; cases he
  · rw [h, runStep_idle (s := s.withInputs s.mem hs) h1 h2 h3 (releaseEnabled_noRaster hr)]; rfl

/-- The step takes the first of the host's samples. -/
theorem mapNext_tick_withInputs (m : Memory) (x : HostSample) (hs : List HostSample) (o : StepOutcome) :
    mapNext State.tick (mapNext (State.withInputs m (x :: hs)) o) = mapNext (State.withInputs m hs) o := by
  cases o <;> rfl

/-- Under a legal signature and with no raster in the host's hands, a step with RESET released is the
sequencer's and leaves the samples that follow: the acknowledge is not in the result. -/
theorem step_running_noRaster {s : State} (hr : s.rasterValid = false) (hm : s.legalMagic = true)
    (ack : Bool) (later : List HostSample) :
    step (s.withInputs s.mem (.running ack :: later)) =
      mapNext (State.withInputs s.mem later) (runStep s) := by
  rw [step_running (s := s.withInputs s.mem (.running ack :: later)) rfl hm, runStep_withHost hr,
    mapNext_tick_withInputs]

/-- Settles O5: either level of RASTER_ACK gives the sequencer's step, or the refusal of the signature. -/
theorem acknowledgeIgnoredWithoutRaster : Obligations.AcknowledgeIgnoredWithoutRaster := by
  intro s a b later hr
  show step (s.withInputs s.mem (.running a :: later)) = step (s.withInputs s.mem (.running b :: later))
  cases hm : s.legalMagic with
  | true => rw [step_running_noRaster hr hm, step_running_noRaster hr hm]
  | false =>
    have hrefused (ack : Bool) : step (s.withInputs s.mem (.running ack :: later)) =
        .refused .magicStartsWithZero := step_illegalMagic rfl hm
    rw [hrefused, hrefused]

end Sys2Proof.Machine
end

section
/-!
# Fault entry and the status codes

What `raise` leaves behind (spec/60_exceptions.md R167), that no step is enabled in FormatError
(spec/10_state.md R20), and that the codes of STATE and CAUSE are told apart (spec/60_exceptions.md R173).
-/

namespace Sys2Proof.Machine

/-! ## Fault entry -/

/-- After `raise` nothing later in the step happens (spec/00_scope.md R16). -/
theorem raise_andThen_outcome (c : Cause) (pos exp found : Nat) (s : State) (k : State → Flow) :
    ((raise c pos exp found s).andThen k).outcome = .next (s.faultEntry c pos exp found) := rfl

/-- In FormatError no step is enabled, whatever the host drives: HEADER asks for ExpectHeader, the others
for ExpectPayload (spec/10_state.md R20). -/
theorem notEnabled_of_formatError {s : State} (h : s.phase = .formatError) :
    s.headerEnabled = false ∧ s.tokenEnabled = false ∧ s.finishEnabled = false ∧
      s.releaseEnabled = false := by
  simp [← Bool.not_eq_true, headerEnabled_iff, tokenEnabled_iff, finishEnabled_iff, releaseEnabled_iff, h]

/-- Settles O25: the step ends in fault entry from `s` itself, in FormatError. -/
theorem faultEntryWritesStatus : Obligations.FaultEntryWritesStatus := by
  intro s c pos exp found k hr
  exact ⟨s.faultEntry c pos exp found, raise_andThen_outcome c pos exp found s k,
    (SameOutsideOpen.refl s).faulted c pos exp found, hr, notEnabled_of_formatError rfl⟩

/-! ## The status codes -/

/-- Where each name stands in a list at the place its code gives, the codes tell the names apart. -/
theorem code_injective_of_listed {α : Type} {code : α → BitVec 3} {names : List α}
    (h : ∀ a, names[(code a).toNat]? = some a) : Function.Injective code := fun a b hab =>
  Option.some.inj (by rw [← h a, hab, h b])

/-- The states in the order of R28's table. -/
def Phase.names : List Phase :=
  [.expectHeader, .expectPayload, .done, .unsupportedFile, .formatError]

/-- The causes in the order of R160's table. -/
def Cause.names : List Cause :=
  [.none, .unsupportedFormat, .invalidEncodingFlag, .truncatedStream, .rasterOverrun, .invalidArgument,
    .invalidDimensions]

theorem Phase.names_code (p : Phase) : Phase.names[p.code.toNat]? = some p := by
  cases p <;> rfl

theorem Cause.names_code (c : Cause) : Cause.names[c.code.toNat]? = some c := by
  cases c <;> rfl

/-- Settles O43: each code is the place of its name in R28's and in R160's table. -/
theorem statusCodesDistinguish : Obligations.StatusCodesDistinguish :=
  ⟨fun _ _ h => code_injective_of_listed Phase.names_code h,
    fun _ _ h => code_injective_of_listed Cause.names_code h, rfl, rfl⟩

end Sys2Proof.Machine
end
